-- ==== Sys2Proof/Word.lean ====
section
/-! DEFINITION. The two basic types of Sigma16: the 16-bit word (R5, R20, R40) and the name of a
general register (R20, R21). The operators `+16`, `-16` and `*16` of R105 are `BitVec` addition,
subtraction and multiplication at width 16. -/

namespace Sys2Proof

/-- A word: 16 bits, bit 15 the most significant (R5). Registers, memory words, displacements and the
program counter are all of this one width (R7). -/
abbrev Word := BitVec 16

/-- The name of a general register, `R0` to `R15` (R20, R21). -/
abbrev Reg := Fin 16

end Sys2Proof
end

