-- ==== Sys2Proof/Syntax.lean ====
section
/-! DEFINITION. The instructions: one constructor per row of the opcode table (R68, R69, R74), the
three rows of undefined first words (R70, R71) among them, since R74 decodes them to the form
`ILLEGAL w1`. -/

namespace Sys2Proof

/-- A decoded instruction. RRR forms carry the fields d, a, b in that order (R64); RX and X forms carry
d, the displacement and a, in the order of the assembly text `mn Rd,disp[Ra]` (R65, R75). Fields that
the machine ignores are kept (R72). -/
inductive Instr where
  | add (d a b : Reg)
  | sub (d a b : Reg)
  | mul (d a b : Reg)
  | div (d a b : Reg)
  | cmplt (d a b : Reg)
  | cmpeq (d a b : Reg)
  | cmpgt (d a b : Reg)
  | inv (d a b : Reg)
  | and (d a b : Reg)
  | or (d a b : Reg)
  | xor (d a b : Reg)
  | shiftl (d a b : Reg)
  | shiftr (d a b : Reg)
  | trap (d a b : Reg)
  | lea (d : Reg) (disp : Word) (a : Reg)
  | load (d : Reg) (disp : Word) (a : Reg)
  | store (d : Reg) (disp : Word) (a : Reg)
  | jump (d : Reg) (disp : Word) (a : Reg)
  | jumpf (d : Reg) (disp : Word) (a : Reg)
  | jumpt (d : Reg) (disp : Word) (a : Reg)
  | jal (d : Reg) (disp : Word) (a : Reg)
  /-- A first word with op 0xe, the undefined XX format (R70, R131). -/
  | illegalXX (w1 : Word)
  /-- A first word with op 0xf and b = 7, for which the RX table has no row (R71, R132). -/
  | illegalRxB7 (w1 : Word)
  /-- A first word with op 0xf and b = 8 to 15, for which the RX table has no row (R71, R132). -/
  | illegalRxB8to15 (w1 : Word)
  deriving DecidableEq, Repr

/-- How many words the instruction occupies (R60, R63). For an undefined first word this is the number
of words the decoder has read when it gives up (R131, R132), not a length: the spec gives none. -/
def Instr.words : Instr → Nat
  | .add _ _ _ | .sub _ _ _ | .mul _ _ _ | .div _ _ _ => 1
  | .cmplt _ _ _ | .cmpeq _ _ _ | .cmpgt _ _ _ => 1
  | .inv _ _ _ | .and _ _ _ | .or _ _ _ | .xor _ _ _ => 1
  | .shiftl _ _ _ | .shiftr _ _ _ | .trap _ _ _ => 1
  | .lea _ _ _ | .load _ _ _ | .store _ _ _ => 2
  | .jump _ _ _ | .jumpf _ _ _ | .jumpt _ _ _ | .jal _ _ _ => 2
  | .illegalXX _ | .illegalRxB7 _ | .illegalRxB8to15 _ => 1

end Sys2Proof
end

