-- ==== Sys2Proof/WellFormed.lean ====
section
/-! DEFINITION. Which instruction terms stand for words of the machine. The operand types leave nothing
to check for the 21 instructions (any register in any combination, any displacement: R62, R73); an
undefined form must carry a first word of its own pattern (R70, R71). -/

namespace Sys2Proof

/-- `true` when the term stands for words of the machine. -/
def Instr.wf : Instr → Bool
  | .add _ _ _ | .sub _ _ _ | .mul _ _ _ | .div _ _ _ => true
  | .cmplt _ _ _ | .cmpeq _ _ _ | .cmpgt _ _ _ => true
  | .inv _ _ _ | .and _ _ _ | .or _ _ _ | .xor _ _ _ => true
  | .shiftl _ _ _ | .shiftr _ _ _ | .trap _ _ _ => true
  | .lea _ _ _ | .load _ _ _ | .store _ _ _ => true
  | .jump _ _ _ | .jumpf _ _ _ | .jumpt _ _ _ | .jal _ _ _ => true
  | .illegalXX w1 => w1.toNat / 4096 = 14
  | .illegalRxB7 w1 => w1.toNat / 4096 = 15 ∧ w1.toNat % 16 = 7
  | .illegalRxB8to15 w1 => w1.toNat / 4096 = 15 ∧ 8 ≤ w1.toNat % 16

end Sys2Proof
end

