-- ==== Sys2Proof/Decode.lean ====
section
/-! DEFINITION. The decoder (R27, R61, R63, R68, R69, R74), total on every list of words, and after it
the encoder (R76, R77). A word is the smallest unit there is (R45), so both work on words. -/

namespace Sys2Proof

/-- `w[hi:lo]` of R5: the unsigned integer made of bits `hi` down to `lo`. -/
def bits (w : Word) (hi lo : Nat) : Nat := w.toNat / 2 ^ lo % 2 ^ (hi + 1 - lo)

/-- The op field, bits 15:12 (R61). -/
def opField (w : Word) : Nat := bits w 15 12

/-- The b field as a number, bits 3:0 (R61): the secondary opcode of an RX or X word (R69). -/
def bCode (w : Word) : Nat := bits w 3 0

/-- The d field, bits 11:8, as a register (R61, R67). -/
def dField (w : Word) : Reg := Fin.ofNat 16 (bits w 11 8)

/-- The a field, bits 7:4, as a register (R61, R67). -/
def aField (w : Word) : Reg := Fin.ofNat 16 (bits w 7 4)

/-- The b field, bits 3:0, as a register (R61, R67). -/
def bField (w : Word) : Reg := Fin.ofNat 16 (bCode w)

/-- Whether a first word begins a two-word instruction: op 0xf with b 0 to 6 (R27, R63, R133). -/
def needsDisplacement (w1 : Word) : Bool := opField w1 = 15 ∧ bCode w1 ≤ 6

/-- The secondary opcode map (R69), and R71's words without a row; `w1` has op 0xf. -/
def decodeRx (w1 disp : Word) : Instr :=
  match bCode w1 with
  | 0 => .lea (dField w1) disp (aField w1)
  | 1 => .load (dField w1) disp (aField w1)
  | 2 => .store (dField w1) disp (aField w1)
  | 3 => .jump (dField w1) disp (aField w1)
  | 4 => .jumpf (dField w1) disp (aField w1)
  | 5 => .jumpt (dField w1) disp (aField w1)
  | 6 => .jal (dField w1) disp (aField w1)
  | 7 => .illegalRxB7 w1
  | _ => .illegalRxB8to15 w1

/-- `decode(w1)` of R74, with the displacement a two-word form takes from the next word. The op field is
below 16, so the last arm is op 0xf. -/
def decodeWord (w1 disp : Word) : Instr :=
  match opField w1 with
  | 0 => .add (dField w1) (aField w1) (bField w1)
  | 1 => .sub (dField w1) (aField w1) (bField w1)
  | 2 => .mul (dField w1) (aField w1) (bField w1)
  | 3 => .div (dField w1) (aField w1) (bField w1)
  | 4 => .cmplt (dField w1) (aField w1) (bField w1)
  | 5 => .cmpeq (dField w1) (aField w1) (bField w1)
  | 6 => .cmpgt (dField w1) (aField w1) (bField w1)
  | 7 => .inv (dField w1) (aField w1) (bField w1)
  | 8 => .and (dField w1) (aField w1) (bField w1)
  | 9 => .or (dField w1) (aField w1) (bField w1)
  | 10 => .xor (dField w1) (aField w1) (bField w1)
  | 11 => .shiftl (dField w1) (aField w1) (bField w1)
  | 12 => .shiftr (dField w1) (aField w1) (bField w1)
  | 13 => .trap (dField w1) (aField w1) (bField w1)
  | 14 => .illegalXX w1
  | _ => decodeRx w1 disp

/-- Why a list of words begins with no instruction: too few words (R60). An undefined first word is not
rejected here: R74 decodes it to `ILLEGAL w1`. -/
inductive DecodeError where
  /-- There is no word at all. -/
  | noFirstWord
  /-- A first word of a two-word form is the last word of the list. -/
  | noDisplacement
  deriving DecidableEq, Repr

/-- What the decoder answers: an instruction and the words after it, or a rejection by name. -/
inductive DecodeResult where
  | ok (i : Instr) (rest : List Word)
  | rejected (e : DecodeError)
  deriving DecidableEq, Repr

/-- The instruction at the head of a list of words, and the words after it (R60, R63, R74). -/
def decode : List Word → DecodeResult
  | [] => .rejected .noFirstWord
  | w1 :: rest =>
    if needsDisplacement w1 then
      match rest with
      | [] => .rejected .noDisplacement
      | disp :: rest' => .ok (decodeWord w1 disp) rest'
    else .ok (decodeWord w1 0x0000#16) rest

/-- The two words whose bits `w` numbers as the opcode table does: bit 0 of `w` is bit 0 of the first
word, bit 16 of `w` is bit 0 of the second; bits from `nbits` on are zero. -/
def tableWords (nbits w : Nat) : Word × Word :=
  (BitVec.ofNat 16 (w % 2 ^ nbits), BitVec.ofNat 16 (w % 2 ^ nbits / 65536))

/-- The instruction the decoder reads from an instruction whose bits are `w`. -/
def decodeTableWord (nbits w : Nat) : Option Instr :=
  match decode [(tableWords nbits w).1, (tableWords nbits w).2] with
  | .ok i _ => some i
  | .rejected _ => none

/-- `op * 4096 + d * 256 + a * 16 + b`, the word of an RRR statement (R76). -/
def rrrWord (op : Nat) (d a b : Reg) : Word :=
  BitVec.ofNat 16 (op * 4096 + d.val * 256 + a.val * 16 + b.val)

/-- `0xF000 + d * 256 + a * 16 + b` and the displacement, the words of an RX or X statement (R77). -/
def rxWords (b : Nat) (d a : Reg) (disp : Word) : List Word :=
  [BitVec.ofNat 16 (0xF000 + d.val * 256 + a.val * 16 + b), disp]

/-- The words of an instruction (R68, R69, R76, R77). A kept d field of `jump` is written back (R72,
R79); an undefined form gives back its own first word. -/
def encode : Instr → List Word
  | .add d a b => [rrrWord 0x0 d a b]
  | .sub d a b => [rrrWord 0x1 d a b]
  | .mul d a b => [rrrWord 0x2 d a b]
  | .div d a b => [rrrWord 0x3 d a b]
  | .cmplt d a b => [rrrWord 0x4 d a b]
  | .cmpeq d a b => [rrrWord 0x5 d a b]
  | .cmpgt d a b => [rrrWord 0x6 d a b]
  | .inv d a b => [rrrWord 0x7 d a b]
  | .and d a b => [rrrWord 0x8 d a b]
  | .or d a b => [rrrWord 0x9 d a b]
  | .xor d a b => [rrrWord 0xa d a b]
  | .shiftl d a b => [rrrWord 0xb d a b]
  | .shiftr d a b => [rrrWord 0xc d a b]
  | .trap d a b => [rrrWord 0xd d a b]
  | .lea d disp a => rxWords 0 d a disp
  | .load d disp a => rxWords 1 d a disp
  | .store d disp a => rxWords 2 d a disp
  | .jump d disp a => rxWords 3 d a disp
  | .jumpf d disp a => rxWords 4 d a disp
  | .jumpt d disp a => rxWords 5 d a disp
  | .jal d disp a => rxWords 6 d a disp
  | .illegalXX w1 => [w1]
  | .illegalRxB7 w1 => [w1]
  | .illegalRxB8to15 w1 => [w1]

end Sys2Proof
end

