-- ==== Sys2Proof/Config.lean ====
section
/-! DEFINITION. The implementation parameters of R4. An OPEN parameter is an `opaque` constant: it has
no body, so no proof can learn its value and every claim holds whatever it is. A parameter that the
spec decides has the value the spec gives it. -/

namespace Sys2Proof.Config

/-- The three readings of `/` and `mod` that R107 specifies for `DIV_CONVENTION`. -/
inductive DivConvention where
  | signedFloor
  | signedTrunc
  | unsigned
  deriving DecidableEq, Repr

/-- `Word16 x Word16 x Word16 -> Word16`, the type R4 gives `SHIFTL_FN` and `SHIFTR_FN`: the old
contents of registers d, a, b, in that order (R127). -/
abbrev ShiftFn := Word → Word → Word → Word

/-- OPEN `R0_HARDWIRED_ZERO` (R4, R24, D4). Uninterpreted: log entry 3. -/
opaque r0HardwiredZero : Bool

/-- OPEN `INTERRUPT_HANDLER` (R4, R130, D16). Uninterpreted: log entry 4. -/
opaque interruptHandler : Word

/-- The value `shiftl` writes (R124, R127, D15). Uninterpreted: log entry 5. -/
opaque shiftlValue : ShiftFn

/-- The value `shiftr` writes (R125, R127, D15). Uninterpreted: log entry 5. -/
opaque shiftrValue : ShiftFn

/-- `SHIFTL_FN` as R124 tests it. This model always supplies it, as an uninterpreted function. -/
def shiftlFn : Option ShiftFn := some shiftlValue

/-- `SHIFTR_FN` as R125 tests it. This model always supplies it, as an uninterpreted function. -/
def shiftrFn : Option ShiftFn := some shiftrValue

/-- `CMP_SIGNED` = true, the spec's default (R4, R114, D9). -/
def cmpSigned : Bool := true

/-- `BOOL_TRUE` = 0x0001 (R4, R113, D10). -/
def boolTrue : Word := 0x0001#16

/-- `DIV_CONVENTION` = signed_floor, the spec's default (R4, R107, D11). -/
def divConvention : DivConvention := .signedFloor

/-- `RESET_PC` = 0x0000 (R4, R36, D21). -/
def resetPc : Word := 0x0000#16

/-- What a memory word that nothing lists reads as. DESIGN CHOICE, unsafe: the zero-filling launch of
R38 (log entry 2). -/
def unlistedWord : Word := 0x0000#16

/-- `INITIAL_REGS` of the launch that `State.reset` is: a value for every register. DESIGN CHOICE,
unsafe: R35 gives R0 = 0x0000 for every vector of the spec and no value for R1 to R15 (log entry 1). -/
def initialRegs : Vector Word 16 := Vector.replicate 16 0x0000#16

end Sys2Proof.Config
end

