-- ==== Sys2Proof/Machine/State.lean ====
section
/-! DEFINITION. The state of the machine (R20, R26, R32, R35, R40, R172), the reasons a step can stop,
and the launch state that reset makes (R34, R190). There are no flags, no control registers, no other
register files, no modes and no hidden state (R29, R30, R31, R33, R165, R168). -/

namespace Sys2Proof.Machine

/-- The model faults of R161. A fault is precise and terminal (R162): the step makes no next state. Each
errs toward unprovable, so each is safe. `UnwrittenRegisterRead` is not among them: its condition, that
the launch gave the register no value, never holds here (log entry 1). -/
inductive Fault where
  /-- Raised by the undefined first words: op 0xe (R131), or op 0xf with b ≥ 7 (R132). Safe. -/
  | illegalInstruction (a0 w1 : Word)
  /-- Raised by `div` when the divisor register holds 0x0000 (R103, R108). Safe. -/
  | divideByZero (a0 : Word)
  /-- Raised by `div` when its d and a fields are equal (R103). Safe. -/
  | unspecifiedDivOverlap (a0 : Word)
  /-- Raised by the shared shift operation when no shift function is supplied (R124, R125). This model
  supplies both (log entry 5), so neither `shiftl` nor `shiftr` reaches it. Safe. -/
  | unspecifiedShift (a0 : Word)
  deriving DecidableEq, Repr

/-- Why the model gives no next state without a fault. -/
inductive Refusal where
  /-- An arm of `exec` whose instruction has no meaning yet. No arm raises it now. Safe. -/
  | notModelled (mnemonic : String)
  /-- Raised by `step` after the run has ended: no step is possible then (R172, R173). Safe. -/
  | runEnded
  deriving DecidableEq, Repr

/-- Run status, the spec's own bookkeeping (R172). -/
inductive RunStatus where
  | running
  | ended
  | faulted (f : Fault)
  deriving DecidableEq, Repr

/-- One listed word of memory: its word address and its content. The unit is the 16-bit word, never two
bytes (R40, R45; log entry 6). -/
abbrev Cell := Nat × Word

/-- Memory: the words that differ from `Config.unlistedWord`, by rising address. -/
abbrev Memory := List Cell

/-- The canonical form: addresses strictly rising and below 65536 (R40), no listed word equal to what
an unlisted address reads as. -/
abbrev Memory.wf (m : Memory) : Prop :=
  m.Pairwise (fun c e => c.1 < e.1) ∧ ∀ c ∈ m, c.1 < 65536 ∧ c.2 ≠ Config.unlistedWord

/-- The whole state: sixteen general registers (R20), the program counter (R26), memory (R32, R40) and
the run status (R172). -/
structure State where
  regs : Vector Word 16
  pc : Word
  mem : Memory
  status : RunStatus
  deriving DecidableEq, Repr

/-- The launch state made from `INITIAL_REGS` and `INITIAL_MEMORY` (R34, R190): execution starts at
`RESET_PC` (R36), running (R35). -/
def State.launch (initialRegs : Vector Word 16) (initialMemory : Memory) : State :=
  { regs := initialRegs, pc := Config.resetPc, mem := initialMemory, status := .running }

/-- The machine right after reset, with nothing loaded: the launch whose registers are all 0x0000 (log
entry 1) and whose memory lists nothing (log entry 2). -/
def State.reset : State := State.launch Config.initialRegs []

end Sys2Proof.Machine
end

