-- ==== Sys2Proof/Machine/Ops.lean ====
section
/-! DEFINITION. The named operations over registers, memory and the program counter (R7), the fetch of
R27, and trap entry (R166). Nothing else reads or writes a register or a memory word. -/

namespace Sys2Proof.Machine

/-- The outcome of an instruction. -/
abbrev Result := Host.Outcome State Fault Refusal

/-- The state with another program counter. -/
def State.setPc (s : State) (v : Word) : State := { s with pc := v }

/-- The state with another run status. -/
def State.setStatus (s : State) (v : RunStatus) : State := { s with status := v }

/-- The state with another memory. -/
def State.setMem (s : State) (m : Memory) : State := { s with mem := m }

/-- The state with another stored word in one register. -/
def State.setReg (s : State) (r : Reg) (v : Word) : State := { s with regs := s.regs.set r.val v r.isLt }

/-- `x[i]` (R22). Register 0 reads 0x0000 when it is hardwired. The stored word is tested before the
OPEN parameter, so that a run that keeps 0x0000 in R0 can be evaluated; the value is R22's whatever is
stored (`readReg_eq`). -/
def State.readReg (s : State) (r : Reg) : Word :=
  if r = 0 ∧ s.regs[r] ≠ 0x0000#16 ∧ Config.r0HardwiredZero = true then 0x0000#16 else s.regs[r]

/-- `x[i] <- v` (R23). A write to a hardwired register 0 is discarded. A write of the word already
stored changes nothing either way, and is tested before the OPEN parameter (`writeReg_eq`). -/
def State.writeReg (s : State) (r : Reg) (v : Word) : State :=
  if r = 0 ∧ v ≠ s.regs[r] ∧ Config.r0HardwiredZero = true then s else s.setReg r v

/-- The content of the first cell listed for address `a`, or what an unlisted address reads as. -/
def Memory.read : Memory → Nat → Word
  | [], _ => Config.unlistedWord
  | (k, w) :: m, a => if k = a then w else Memory.read m a

/-- No cell is listed for address `a`. -/
def Memory.erase (m : Memory) (a : Nat) : Memory := m.filter (fun c => c.1 ≠ a)

/-- A cell put at its place by rising address. -/
def Memory.insert : Memory → Nat → Word → Memory
  | [], a, v => [(a, v)]
  | c :: m, a, v => if a < c.1 then (a, v) :: c :: m else c :: Memory.insert m a v

/-- The memory in which address `a` holds `v` and every other address what it held, in canonical form. -/
def Memory.write (m : Memory) (a : Nat) (v : Word) : Memory :=
  if v = Config.unlistedWord then m.erase a else (m.erase a).insert a v

/-- `MemRead(addr, 1)` (R41): the word at a word address. No address can fail (R44). -/
def State.memRead (s : State) (addr : Word) : Word := s.mem.read addr.toNat

/-- `MemWrite(addr, 1, v)` (R42). No address can fail and none is protected (R44, R52). -/
def State.memWrite (s : State) (addr v : Word) : State := s.setMem (s.mem.write addr.toNat v)

/-- `pc` moved past `n` words, modulo 65536 (R27, R28). -/
def State.advance (s : State) (n : Nat) : State := s.setPc (s.pc + BitVec.ofNat 16 n)

/-- The fetch of R27: the first word at `pc`, and only for a two-word form the displacement at
`pc +16 1` (R46). Both are plain memory reads, so every earlier store is seen (R53, R57). -/
def State.fetch (s : State) : Instr :=
  if needsDisplacement (s.memRead s.pc) then decodeWord (s.memRead s.pc) (s.memRead (s.pc + 1))
  else decodeWord (s.memRead s.pc) 0x0000#16

/-- Trap entry, all that it does to the state (R130, R166, R173): control goes to the interrupt handler
and the run ends. Nothing is saved, no mode or mask changes (there are none), and the spec gives no
return from it (R167), so no return operation stands beside it. -/
def State.takeTrap (s : State) : State := (s.setPc Config.interruptHandler).setStatus .ended

/-- The state reported after a model fault (R162): as at the start of the step, marked faulted (R172). -/
def State.recordFault (s : State) (f : Fault) : State := s.setStatus (.faulted f)

/-- An RRR instruction that writes register d with a function of registers a and b (R64, R104): the
sources are read first, `pc` moves one word. -/
def rrrWrite (f : Word → Word → Word) (d a b : Reg) (s : State) : Result :=
  .next ((s.advance 1).writeReg d (f (s.readReg a) (s.readReg b)))

/-- An RRR instruction whose whole effect is the advance of `pc` by one word (R126). -/
def noOperation (s : State) : Result := .next (s.advance 1)

/-- A shift opcode (R124, R125, R127): with a supplied function of the old d, a, b contents, its value is
written to d; without one, the model fault `UnspecifiedShift`. -/
def shiftBy (fn : Option Config.ShiftFn) (d a b : Reg) (s : State) : Result :=
  match fn with
  | none => .fault (.unspecifiedShift s.pc)
  | some f => .next ((s.advance 1).writeReg d (f (s.readReg d) (s.readReg a) (s.readReg b)))

/-- A first word that stands for no instruction (R131, R132, R162). -/
def raiseIllegal (w1 : Word) (s : State) : Result := .fault (.illegalInstruction s.pc w1)

end Sys2Proof.Machine
end

