-- ==== Sys2Proof/Machine/Operands.lean ====
section
/-! DEFINITION. The operand forms and the value functions of the instructions: the two readings of a word
(R6), the one addressing mode (R140), and division (R107). Addition, subtraction and multiplication
(R105, R106) are `BitVec`'s own. -/

namespace Sys2Proof.Machine

/-- `u(w)`, the unsigned value (R6). -/
def unsignedValue (w : Word) : Nat := w.toNat

/-- `s(w)`, the two's-complement value (R6). -/
def signedValue (w : Word) : Int := if w.toNat < 32768 then (w.toNat : Int) else (w.toNat : Int) - 65536

/-- `Q mod 65536` as a word, for an integer `Q` (R107). -/
def wordOfInt (q : Int) : Word := BitVec.ofInt 16 q

/-- The effective address `ea = disp +16 x[a]` (R43, R67, R140). -/
def State.effectiveAddress (s : State) (disp : Word) (a : Reg) : Word := disp + s.readReg a

/-- The integer quotient and remainder of `DIVMOD`, before `mod 65536`, in each convention (R107). -/
def divInt (c : Config.DivConvention) (n m : Word) : Int × Int :=
  match c with
  | .signedFloor =>
    let q := Int.fdiv (signedValue n) (signedValue m)
    (q, signedValue n - q * signedValue m)
  | .signedTrunc =>
    let q := Int.tdiv (signedValue n) (signedValue m)
    (q, signedValue n - q * signedValue m)
  | .unsigned =>
    let q := unsignedValue n / unsignedValue m
    (q, unsignedValue n - q * unsignedValue m)

/-- `DIVMOD(n, m)` for nonzero `m` (R107): quotient and remainder as words. `div` never asks for it with
`m` = 0x0000 (R108). -/
def divMod (c : Config.DivConvention) (n m : Word) : Word × Word :=
  (wordOfInt (divInt c n m).1, wordOfInt (divInt c n m).2)

end Sys2Proof.Machine
end

