-- ==== Sys2Proof/Machine/Arith.lean ====
section
/-! DEFINITION. The RRR arithmetic instructions: add, sub, mul, div (R100 to R108). -/

namespace Sys2Proof.Machine

/-- `add Rd,Ra,Rb` (R100): `x[d] <- x[a] +16 x[b]`. -/
def execAdd (d a b : Reg) (s : State) : Result := rrrWrite (fun p q => p + q) d a b s

/-- `sub Rd,Ra,Rb` (R101): `x[d] <- x[a] -16 x[b]`. -/
def execSub (d a b : Reg) (s : State) : Result := rrrWrite (fun p q => p - q) d a b s

/-- `mul Rd,Ra,Rb` (R102): `x[d] <- x[a] *16 x[b]`, the low 16 bits of the product (R106). -/
def execMul (d a b : Reg) (s : State) : Result := rrrWrite (fun p q => p * q) d a b s

/-- `div Rd,Ra,Rb` (R103): the quotient to d, the remainder to a, both of the old contents (R10). The
checks stand in the order of R164. -/
def execDiv (d a b : Reg) (s : State) : Result :=
  if d = a then .fault (.unspecifiedDivOverlap s.pc)
  else if s.readReg b = 0x0000#16 then .fault (.divideByZero s.pc)
  else
    let qr := divMod Config.divConvention (s.readReg a) (s.readReg b)
    .next (((s.advance 1).writeReg d qr.1).writeReg a qr.2)

end Sys2Proof.Machine
end

