-- ==== Sys2Proof/Machine/Flags.lean ====
section
/-! DEFINITION. The machine has no flags and no condition codes (R29): a comparison writes its truth value
as a word to a general register (R113), and a conditional jump tests a register's word. Those are the
computations here. -/

namespace Sys2Proof.Machine

/-- `bool(c)` of R113: `BOOL_TRUE` when the relation holds, 0x0000 when it does not. -/
def boolWord (c : Bool) : Word := if c then Config.boolTrue else 0x0000#16

/-- "<" on words, signed or unsigned (R110, R114). -/
def lessThan (signed : Bool) (p q : Word) : Bool :=
  if signed then signedValue p < signedValue q else unsignedValue p < unsignedValue q

/-- ">" on words, signed or unsigned (R112, R114). -/
def greaterThan (signed : Bool) (p q : Word) : Bool :=
  if signed then signedValue p > signedValue q else unsignedValue p > unsignedValue q

/-- "=" on words, bit for bit (R111). -/
def wordsEqual (p q : Word) : Bool := p = q

/-- What `jumpf` tests, on all 16 bits (R151). Every other word is true (R152). -/
def isZeroWord (w : Word) : Bool := w = 0x0000#16

end Sys2Proof.Machine
end

