-- ==== Sys2Proof/Machine/Compare.lean ====
section
/-! DEFINITION. The RRR comparison instructions: cmplt, cmpeq, cmpgt (R110 to R114). -/

namespace Sys2Proof.Machine

/-- `cmplt Rd,Ra,Rb` (R110). -/
def execCmplt (d a b : Reg) (s : State) : Result :=
  rrrWrite (fun p q => boolWord (lessThan Config.cmpSigned p q)) d a b s

/-- `cmpeq Rd,Ra,Rb` (R111). -/
def execCmpeq (d a b : Reg) (s : State) : Result :=
  rrrWrite (fun p q => boolWord (wordsEqual p q)) d a b s

/-- `cmpgt Rd,Ra,Rb` (R112). -/
def execCmpgt (d a b : Reg) (s : State) : Result :=
  rrrWrite (fun p q => boolWord (greaterThan Config.cmpSigned p q)) d a b s

end Sys2Proof.Machine
end

