-- ==== Sys2Proof/Machine/Jumps.lean ====
section
/-! DEFINITION. The RX and X control transfers: jump, jumpf, jumpt, jal (R150 to R156). -/

namespace Sys2Proof.Machine

/-- `jump disp[Ra]` (R150): `pc <- ea`; the d field is ignored (R66, R72). -/
def execJump (_d : Reg) (disp : Word) (a : Reg) (s : State) : Result :=
  .next (s.setPc (s.effectiveAddress disp a))

/-- `jumpf Rd,disp[Ra]` (R151): taken when register d holds 0x0000, else `pc` moves two words (R156). -/
def execJumpf (d : Reg) (disp : Word) (a : Reg) (s : State) : Result :=
  .next (if isZeroWord (s.readReg d) then s.setPc (s.effectiveAddress disp a) else s.advance 2)

/-- `jumpt Rd,disp[Ra]` (R152): taken when register d holds any other word than 0x0000. -/
def execJumpt (d : Reg) (disp : Word) (a : Reg) (s : State) : Result :=
  .next (if isZeroWord (s.readReg d) then s.advance 2 else s.setPc (s.effectiveAddress disp a))

/-- `jal Rd,disp[Ra]` (R153): the address of the next instruction to d, the old effective address to
`pc` (R10). -/
def execJal (d : Reg) (disp : Word) (a : Reg) (s : State) : Result :=
  .next (((s.advance 2).writeReg d (s.advance 2).pc).setPc (s.effectiveAddress disp a))

end Sys2Proof.Machine
end

