-- ==== Sys2Proof/Machine/LogicShift.lean ====
section
/-! DEFINITION. The RRR logic and shift opcodes (R120 to R127). The four logic opcodes are no-operations,
as the action column says (C3); the two shifts write a value the spec leaves open (C2). -/

namespace Sys2Proof.Machine

/-- `inv Rd,Ra,Rb` (R120, R126): no operation; its fields are ignored (R72). -/
def execInv (_d _a _b : Reg) (s : State) : Result := noOperation s

/-- `and Rd,Ra,Rb` (R121, R126): no operation; its fields are ignored (R72). -/
def execAnd (_d _a _b : Reg) (s : State) : Result := noOperation s

/-- `or Rd,Ra,Rb` (R122, R126): no operation; its fields are ignored (R72). -/
def execOr (_d _a _b : Reg) (s : State) : Result := noOperation s

/-- `xor Rd,Ra,Rb` (R123, R126): no operation; its fields are ignored (R72). -/
def execXor (_d _a _b : Reg) (s : State) : Result := noOperation s

/-- `shiftl Rd,Ra,Rb` (R124): `x[d] <- SHIFTL_FN(x[d], x[a], x[b])`. -/
def execShiftl (d a b : Reg) (s : State) : Result := shiftBy Config.shiftlFn d a b s

/-- `shiftr Rd,Ra,Rb` (R125): `x[d] <- SHIFTR_FN(x[d], x[a], x[b])`. -/
def execShiftr (d a b : Reg) (s : State) : Result := shiftBy Config.shiftrFn d a b s

end Sys2Proof.Machine
end

