-- ==== Sys2Proof/Machine/RxMemory.lean ====
section
/-! DEFINITION. The RX address and memory instructions: lea, load, store (R140 to R144). -/

namespace Sys2Proof.Machine

/-- `lea Rd,disp[Ra]` (R141): `x[d] <- ea`. No data access. -/
def execLea (d : Reg) (disp : Word) (a : Reg) (s : State) : Result :=
  .next ((s.advance 2).writeReg d (s.effectiveAddress disp a))

/-- `load Rd,disp[Ra]` (R142): `x[d] <- MemRead(ea, 1)`. -/
def execLoad (d : Reg) (disp : Word) (a : Reg) (s : State) : Result :=
  .next ((s.advance 2).writeReg d (s.memRead (s.effectiveAddress disp a)))

/-- `store Rd,disp[Ra]` (R143): `MemWrite(ea, 1, x[d])`; register d is a source (C5). -/
def execStore (d : Reg) (disp : Word) (a : Reg) (s : State) : Result :=
  .next ((s.advance 2).memWrite (s.effectiveAddress disp a) (s.readReg d))

end Sys2Proof.Machine
end

