-- ==== Sys2Proof/Machine/TrapEscape.lean ====
section
/-! DEFINITION. `trap` (R130) and the first words that stand for no instruction (R131, R132). The RX
escape of R133 is the decoder's. -/

namespace Sys2Proof.Machine

/-- `trap Rd,Ra,Rb` (R130): control goes to the interrupt handler and the run ends; the three fields are
ignored (R72). -/
def execTrap (_d _a _b : Reg) (s : State) : Result := .next s.takeTrap

/-- Op 0xe, the undefined XX format (R131). -/
def execIllegalXX (w1 : Word) (s : State) : Result := raiseIllegal w1 s

/-- Op 0xf with b = 7 (R132). -/
def execIllegalRxB7 (w1 : Word) (s : State) : Result := raiseIllegal w1 s

/-- Op 0xf with b = 8 to 15 (R132). -/
def execIllegalRxB8to15 (w1 : Word) (s : State) : Result := raiseIllegal w1 s

end Sys2Proof.Machine
end

