-- ==== Sys2Proof/Machine/Dispatch.lean ====
section
/-! DEFINITION. One arm per instruction. `exec i s` takes the state at the START of the step, `s.pc` the
address of the first word (R27); each meaning moves `pc` past its own words. -/

namespace Sys2Proof.Machine
open Sys2Proof

def exec (i : Instr) (s : State) : Host.Outcome State Fault Refusal :=
  match i with
  | .add d a b => Sys2Proof.Machine.execAdd d a b s
  | .sub d a b => Sys2Proof.Machine.execSub d a b s
  | .mul d a b => Sys2Proof.Machine.execMul d a b s
  | .div d a b => Sys2Proof.Machine.execDiv d a b s
  | .cmplt d a b => Sys2Proof.Machine.execCmplt d a b s
  | .cmpeq d a b => Sys2Proof.Machine.execCmpeq d a b s
  | .cmpgt d a b => Sys2Proof.Machine.execCmpgt d a b s
  | .inv d a b => Sys2Proof.Machine.execInv d a b s
  | .and d a b => Sys2Proof.Machine.execAnd d a b s
  | .or d a b => Sys2Proof.Machine.execOr d a b s
  | .xor d a b => Sys2Proof.Machine.execXor d a b s
  | .shiftl d a b => Sys2Proof.Machine.execShiftl d a b s
  | .shiftr d a b => Sys2Proof.Machine.execShiftr d a b s
  | .trap d a b => Sys2Proof.Machine.execTrap d a b s
  | .lea d disp a => Sys2Proof.Machine.execLea d disp a s
  | .load d disp a => Sys2Proof.Machine.execLoad d disp a s
  | .store d disp a => Sys2Proof.Machine.execStore d disp a s
  | .jump d disp a => Sys2Proof.Machine.execJump d disp a s
  | .jumpf d disp a => Sys2Proof.Machine.execJumpf d disp a s
  | .jumpt d disp a => Sys2Proof.Machine.execJumpt d disp a s
  | .jal d disp a => Sys2Proof.Machine.execJal d disp a s
  | .illegalXX w1 => Sys2Proof.Machine.execIllegalXX w1 s
  | .illegalRxB7 w1 => Sys2Proof.Machine.execIllegalRxB7 w1 s
  | .illegalRxB8to15 w1 => Sys2Proof.Machine.execIllegalRxB8to15 w1 s

end Sys2Proof.Machine
end

