-- ==== Sys2Proof/Machine/Step.lean ====
section
/-! DEFINITION. One step of the machine (R27, R172) and the placing of an instruction where the next step
fetches it. -/

namespace Sys2Proof.Machine

/-- One step: fetch, decode, execute (R27). A step is possible only while the run status is `running`
(R172): after the end of the run there is none (R173), and a fault is never left (R162). -/
def step (s : State) : Host.Outcome State Fault Refusal :=
  match s.status with
  | .running => exec s.fetch s
  | .ended => .refused .runEnded
  | .faulted f => .fault f

/-- The state a step leaves to be seen (R162, R172): the next state; after a model fault, the state at the
start of the step marked faulted; where no step is possible, the same state. -/
def State.reported (s : State) : State :=
  match step s with
  | .next t => t
  | .fault f => s.recordFault f
  | .refused _ => s

/-- The state in which the next step fetches and runs the instruction whose bits are `w` (numbered as
the opcode table numbers them): its words stored at `pc` and `pc +16 1`, the run going on. It stands for
the host's load of `INITIAL_MEMORY` (R177, R191; log entry 7). -/
def State.withFetchWord (s : State) (nbits w : Nat) : State :=
  ((s.memWrite s.pc (tableWords nbits w).1).memWrite (s.pc + 1) (tableWords nbits w).2).setStatus .running

end Sys2Proof.Machine
end

