-- ==== Sys2Proof/Machine/Assembly.lean ====
section
/-! DEFINITION. Assembly text, as far as the spec gives it (R75 to R79): the mnemonics, the printed form of
an instruction, and what an assembler makes of that form. Labels, comments and data statements are
only a notation of the spec's own examples (R80). -/

namespace Sys2Proof.Machine

/-- The mnemonic of the opcode table's row (R68, R69, R75). -/
def mnemonicOf : Instr → String
  | .add _ _ _ => "add"
  | .sub _ _ _ => "sub"
  | .mul _ _ _ => "mul"
  | .div _ _ _ => "div"
  | .cmplt _ _ _ => "cmplt"
  | .cmpeq _ _ _ => "cmpeq"
  | .cmpgt _ _ _ => "cmpgt"
  | .inv _ _ _ => "inv"
  | .and _ _ _ => "and"
  | .or _ _ _ => "or"
  | .xor _ _ _ => "xor"
  | .shiftl _ _ _ => "shiftl"
  | .shiftr _ _ _ => "shiftr"
  | .trap _ _ _ => "trap"
  | .lea _ _ _ => "lea"
  | .load _ _ _ => "load"
  | .store _ _ _ => "store"
  | .jump _ _ _ => "jump"
  | .jumpf _ _ _ => "jumpf"
  | .jumpt _ _ _ => "jumpt"
  | .jal _ _ _ => "jal"
  | .illegalXX _ => "illegal__op_e__the_undefined_XX_format"
  | .illegalRxB7 _ => "illegal__op_f__b___7"
  | .illegalRxB8to15 _ => "illegal__op_f__b___8..15"

/-- `R` and the number in decimal (R21). -/
def regText (r : Reg) : String := "R" ++ toString r.val

/-- `mn Rd,Ra,Rb` (R76, R79). -/
def rrrText (mn : String) (d a b : Reg) : String :=
  mn ++ " " ++ regText d ++ "," ++ regText a ++ "," ++ regText b

/-- `disp[Ra]`, the displacement in decimal (R75, R79, R80). -/
def indexedText (disp : Word) (a : Reg) : String := toString disp.toNat ++ "[" ++ regText a ++ "]"

/-- `mn Rd,disp[Ra]` (R77, R79). -/
def rxText (mn : String) (d : Reg) (disp : Word) (a : Reg) : String :=
  mn ++ " " ++ regText d ++ "," ++ indexedText disp a

/-- The printed form of an instruction (R79); an undefined first word has none. -/
def disassemble (i : Instr) : Option String :=
  match i with
  | .add d a b | .sub d a b | .mul d a b | .div d a b => some (rrrText (mnemonicOf i) d a b)
  | .cmplt d a b | .cmpeq d a b | .cmpgt d a b => some (rrrText (mnemonicOf i) d a b)
  | .inv d a b | .and d a b | .or d a b | .xor d a b => some (rrrText (mnemonicOf i) d a b)
  | .shiftl d a b | .shiftr d a b | .trap d a b => some (rrrText (mnemonicOf i) d a b)
  | .lea d disp a | .load d disp a | .store d disp a => some (rxText (mnemonicOf i) d disp a)
  | .jumpf d disp a | .jumpt d disp a | .jal d disp a => some (rxText (mnemonicOf i) d disp a)
  | .jump _ disp a => some (mnemonicOf i ++ " " ++ indexedText disp a)
  | .illegalXX _ | .illegalRxB7 _ | .illegalRxB8to15 _ => none

/-- The instruction that the printed form stands for (R76, R77): the same, but for `jump`, whose printed
form drops the d field and is assembled with d = 0 (D20). -/
def asListed : Instr → Instr
  | .jump _ disp a => .jump 0 disp a
  | .add d a b => .add d a b
  | .sub d a b => .sub d a b
  | .mul d a b => .mul d a b
  | .div d a b => .div d a b
  | .cmplt d a b => .cmplt d a b
  | .cmpeq d a b => .cmpeq d a b
  | .cmpgt d a b => .cmpgt d a b
  | .inv d a b => .inv d a b
  | .and d a b => .and d a b
  | .or d a b => .or d a b
  | .xor d a b => .xor d a b
  | .shiftl d a b => .shiftl d a b
  | .shiftr d a b => .shiftr d a b
  | .trap d a b => .trap d a b
  | .lea d disp a => .lea d disp a
  | .load d disp a => .load d disp a
  | .store d disp a => .store d disp a
  | .jumpf d disp a => .jumpf d disp a
  | .jumpt d disp a => .jumpt d disp a
  | .jal d disp a => .jal d disp a
  | .illegalXX w1 => .illegalXX w1
  | .illegalRxB7 w1 => .illegalRxB7 w1
  | .illegalRxB8to15 w1 => .illegalRxB8to15 w1

/-- The words an assembler writes for the printed form of an instruction (R76, R77). -/
def assemble (i : Instr) : List Word := encode (asListed i)

end Sys2Proof.Machine
end

