-- ==== Sys2Proof/Safety.lean ====
section
/-! DEFINITION. The vocabulary of claims: the invariant of the state, what an instruction may read and
write (R25), frames, and the end of a run (R173). -/

namespace Sys2Proof.Machine

/-- The invariant of every state a run reaches: memory is in canonical form, and a hardwired register 0
holds 0x0000 (R23, R35). -/
def State.Inv (s : State) : Prop :=
  s.mem.wf ∧ (Config.r0HardwiredZero = true → s.regs[0] = 0x0000#16)

/-- What register d reads as after `x[d] <- v` (R22, R23): a hardwired register 0 still reads 0x0000. -/
def wordAfterWrite (d : Reg) (v : Word) : Word :=
  if d = 0 ∧ Config.r0HardwiredZero = true then 0x0000#16 else v

/-- Every register but those of the list reads in `t` as it reads in `s`. -/
def SameRegsBut (ds : List Reg) (s t : State) : Prop := ∀ r, r ∉ ds → t.readReg r = s.readReg r

/-- Every word of memory reads in `t` as it reads in `s`. -/
def SameMemory (s t : State) : Prop := ∀ addr, t.memRead addr = s.memRead addr

/-- The registers an instruction reads (R25). -/
def regsRead : Instr → List Reg
  | .add _ a b | .sub _ a b | .mul _ a b | .div _ a b => [a, b]
  | .cmplt _ a b | .cmpeq _ a b | .cmpgt _ a b => [a, b]
  | .inv _ _ _ | .and _ _ _ | .or _ _ _ | .xor _ _ _ | .trap _ _ _ => []
  | .shiftl d a b | .shiftr d a b => [d, a, b]
  | .lea _ _ a | .load _ _ a | .jump _ _ a | .jal _ _ a => [a]
  | .store d _ a | .jumpf d _ a | .jumpt d _ a => [d, a]
  | .illegalXX _ | .illegalRxB7 _ | .illegalRxB8to15 _ => []

/-- The registers an instruction writes (R25). -/
def regsWritten : Instr → List Reg
  | .add d _ _ | .sub d _ _ | .mul d _ _ => [d]
  | .div d a _ => [d, a]
  | .cmplt d _ _ | .cmpeq d _ _ | .cmpgt d _ _ => [d]
  | .inv _ _ _ | .and _ _ _ | .or _ _ _ | .xor _ _ _ | .trap _ _ _ => []
  | .shiftl d _ _ | .shiftr d _ _ => [d]
  | .lea d _ _ | .load d _ _ | .jal d _ _ => [d]
  | .store _ _ _ | .jump _ _ _ | .jumpf _ _ _ | .jumpt _ _ _ => []
  | .illegalXX _ | .illegalRxB7 _ | .illegalRxB8to15 _ => []

/-- The five instructions that can write `pc` other than by sequential advance (R26). -/
def assignsPc : Instr → Bool
  | .trap _ _ _ | .jump _ _ _ | .jumpf _ _ _ | .jumpt _ _ _ | .jal _ _ _ => true
  | .add _ _ _ | .sub _ _ _ | .mul _ _ _ | .div _ _ _ => false
  | .cmplt _ _ _ | .cmpeq _ _ _ | .cmpgt _ _ _ => false
  | .inv _ _ _ | .and _ _ _ | .or _ _ _ | .xor _ _ _ => false
  | .shiftl _ _ _ | .shiftr _ _ _ => false
  | .lea _ _ _ | .load _ _ _ | .store _ _ _ => false
  | .illegalXX _ | .illegalRxB7 _ | .illegalRxB8to15 _ => false

/-- A first word that stands for no instruction (R70, R71). -/
def isIllegal : Instr → Bool
  | .illegalXX _ | .illegalRxB7 _ | .illegalRxB8to15 _ => true
  | .add _ _ _ | .sub _ _ _ | .mul _ _ _ | .div _ _ _ => false
  | .cmplt _ _ _ | .cmpeq _ _ _ | .cmpgt _ _ _ => false
  | .inv _ _ _ | .and _ _ _ | .or _ _ _ | .xor _ _ _ => false
  | .shiftl _ _ _ | .shiftr _ _ _ | .trap _ _ _ => false
  | .lea _ _ _ | .load _ _ _ | .store _ _ _ => false
  | .jump _ _ _ | .jumpf _ _ _ | .jumpt _ _ _ | .jal _ _ _ => false

/-- The word `op * 4096 + d * 256 + a * 16 + b` (R61, R76) decodes to the instruction. -/
def DecodesFromRrr (op : Nat) (d a b : Reg) (i : Instr) : Prop :=
  decode [BitVec.ofNat 16 (op * 4096 + d.val * 256 + a.val * 16 + b.val)] = .ok i []

/-- The words `0xF000 + d * 256 + a * 16 + b`, `disp` (R61, R62, R77) decode to the instruction. -/
def DecodesFromRx (b : Nat) (d a : Reg) (disp : Word) (i : Instr) : Prop :=
  decode [BitVec.ofNat 16 (0xF000 + d.val * 256 + a.val * 16 + b), disp] = .ok i []

/-- From `s` to `t`, `pc` has moved past `n` words, modulo 65536, and the run status is the same. -/
def Advanced (n : Nat) (s t : State) : Prop :=
  t.pc.toNat = (s.pc.toNat + n) % 65536 ∧ t.status = s.status

/-- The instruction completes from `s`: register d receives `v`, no other register and no memory word
changes, and `pc` moves past `n` words. -/
def CompletesWriting (i : Instr) (d : Reg) (v : Word) (n : Nat) (s : State) : Prop :=
  ∃ t, exec i s = .next t ∧ t.readReg d = wordAfterWrite d v ∧ SameRegsBut [d] s t ∧ SameMemory s t ∧
    Advanced n s t

/-- The instruction completes from `s` with `pc` = `v`: no register and no memory word changes. -/
def CompletesJumping (i : Instr) (v : Word) (s : State) : Prop :=
  ∃ t, exec i s = .next t ∧ t.pc = v ∧ SameRegsBut [] s t ∧ SameMemory s t ∧ t.status = s.status

/-- Two states that agree on `pc`, run status, all of memory and the registers of the list. -/
def AgreeOn (rs : List Reg) (s t : State) : Prop :=
  t.pc = s.pc ∧ t.status = s.status ∧ SameMemory s t ∧ ∀ r ∈ rs, t.readReg r = s.readReg r

/-- The state `t` is the final state of the run that starts in `s` (R173). -/
def Finishes (s t : State) : Prop :=
  ∃ k, Host.Core.run core k s = .next t ∧ t.status = .ended

/-- A run of any length from `s` meets no model fault: what every claim about a program must prove and may
not assume (R162). -/
def NeverFaults (s : State) : Prop := ∀ k f, Host.Core.run core k s ≠ .fault f

end Sys2Proof.Machine
end

