-- ==== Sys2Proof/Certificates/Slice0/Obligations.lean ====
section
/-! DEFINITION. The statements for the provers. Each docstring says which rule of the spec it formalises;
`[D<n>]` names the spec's own decision the rule rests on (92_eei_decisions.md). The statements hold for
every content of the registers, which is the second of the two forms R37 allows, so the model fault
`UnwrittenRegisterRead` does not occur in them (log entry 1). Where register d may be a hardwired R0,
`wordAfterWrite` says what it reads as (R22, R23). -/

open Sys2Proof Sys2Proof.Machine

/-! ## Encoding -/

/-- Words written out from the encodings of 30_encoding.md R61, R68, R69 (95_test_vectors.md section 2.1)
decode to the instructions they stand for. -/
def Obligations.KnownWordsDecode : Prop :=
  decode [0x0481#16] = .ok (.add 4 8 1) [] ∧
  decode [0x3412#16] = .ok (.div 4 1 2) [] ∧
  decode [0x5320#16] = .ok (.cmpeq 3 2 0) [] ∧
  decode [0xB123#16] = .ok (.shiftl 1 2 3) [] ∧
  decode [0xDFFF#16] = .ok (.trap 15 15 15) [] ∧
  decode [0xF611#16, 0x0019#16] = .ok (.load 6 0x0019#16 1) [] ∧
  decode [0xF202#16, 0x0010#16] = .ok (.store 2 0x0010#16 0) [] ∧
  decode [0xF7D3#16, 0x0000#16] = .ok (.jump 7 0x0000#16 13) [] ∧
  decode [0xFD06#16, 0x0007#16] = .ok (.jal 13 0x0007#16 0) [] ∧
  decode [0xE123#16] = .ok (.illegalXX 0xE123#16) [] ∧
  decode [0xF007#16] = .ok (.illegalRxB7 0xF007#16) [] ∧
  decode [0xFFFF#16] = .ok (.illegalRxB8to15 0xFFFF#16) []

/-- Decoding the words of any well-formed instruction gives it back, with every operand, and leaves the
words after it (R72, R76, R77, R79). -/
def Obligations.DecodeOfEncode : Prop :=
  ∀ (i : Instr) (rest : List Word), i.wf = true → decode (encode i ++ rest) = .ok i rest

/-- Whatever decodes is well formed, and its words are exactly the words that were read: no two word
sequences decode to one instruction (R72, R73, R79). -/
def Obligations.EncodeOfDecode : Prop :=
  ∀ (ws rest : List Word) (i : Instr), decode ws = .ok i rest →
    i.wf = true ∧ encode i ++ rest = ws ∧ (encode i).length = i.words

/-- R63: the op field of the first word alone tells the length, but for the undefined words; an
instruction is one word when op is 0 to 13, two when op is 15 (and its b field has a row). -/
def Obligations.LengthFromOpField : Prop :=
  ∀ (w1 w2 : Word) (rest : List Word), ∃ i, ∃ left, decode (w1 :: w2 :: rest) = .ok i left ∧
    (w1.toNat / 4096 ≤ 13 → i.words = 1 ∧ left = w2 :: rest ∧ isIllegal i = false) ∧
    (w1.toNat / 4096 = 14 → i = .illegalXX w1) ∧
    (w1.toNat / 4096 = 15 → isIllegal i = false → i.words = 2 ∧ left = rest)

/-- R70, R71, R73 [D18, D19]: exactly the words with op 0xe, and with op 0xf and b from 7 on, stand for no
instruction. -/
def Obligations.UndefinedWordsExactly : Prop :=
  ∀ w1 disp : Word, isIllegal (decodeWord w1 disp) = true ↔
    w1.toNat / 4096 = 14 ∨ (w1.toNat / 4096 = 15 ∧ 7 ≤ w1.toNat % 16)

/-- R68, R69: the mnemonic of every op field 0 to 13, and of every b field 0 to 6 under op 15, read off the
source's two tables. -/
def Obligations.OpcodeMapMnemonics : Prop :=
  ∀ w1 disp : Word,
    (w1.toNat / 4096 ≤ 13 →
      ["add", "sub", "mul", "div", "cmplt", "cmpeq", "cmpgt", "inv", "and", "or", "xor", "shiftl",
        "shiftr", "trap"][w1.toNat / 4096]? = some (mnemonicOf (decodeWord w1 disp))) ∧
    (w1.toNat / 4096 = 15 → w1.toNat % 16 ≤ 6 →
      ["lea", "load", "store", "jump", "jumpf", "jumpt", "jal"][w1.toNat % 16]? =
        some (mnemonicOf (decodeWord w1 disp)))

/-- R66: all sixteen values of the d field of `jump` decode as `jump` and mean the same. -/
def Obligations.JumpIgnoresItsDField : Prop :=
  ∀ (d d' a : Reg) (disp : Word) (s : State),
    DecodesFromRx 3 d a disp (.jump d disp a) ∧ exec (.jump d disp a) s = exec (.jump d' disp a) s

/-- R79 (an inference of the spec from R72, R76, R77), over the printed form that log entry 15 chooses
(displacements in decimal, none for an undefined word): the printed form of an instruction loses the d
field of `jump` and nothing else, since instructions that print alike differ at most there; so assembling
it gives the same words unless that field is nonzero. -/
def Obligations.PrintedFormLosesOnlyJumpD : Prop :=
  (∀ i : Instr, disassemble (asListed i) = disassemble i ∧
    (assemble i = encode i ↔ ∀ d disp a, i = .jump d disp a → d = 0)) ∧
  ∀ i j : Instr, isIllegal i = false → disassemble i = disassemble j → asListed i = asListed j

/-! ## The step -/

/-- R27 [D5]: where the words at `pc` decode to an instruction, a step of a running machine is `exec` of it
at that state; `exec` itself moves `pc` past the words (the statements of each instruction say how). -/
def Obligations.StepRunsDecodedInstruction : Prop :=
  ∀ (s : State) (i : Instr) (rest : List Word), s.status = .running →
    decode [s.memRead s.pc, s.memRead (s.pc + 1)] = .ok i rest → step s = exec i s

/-- R26, R27, R104, R144: an instruction that does not assign `pc` leaves it at the address of the next
instruction in memory. -/
def Obligations.SequentialAdvance : Prop :=
  ∀ s t : State, step s = .next t → assignsPc s.fetch = false →
    t.pc.toNat = (s.pc.toNat + s.fetch.words) % 65536

/-- R28 [D7, D27]: every address is an instruction address, and fetch and advance wrap at the top of
memory: after a one-word instruction at 0xFFFF `pc` is 0x0000; a two-word instruction there has its
displacement at 0x0000 and the next instruction at 0x0001. -/
def Obligations.FetchWrapsAtTop : Prop :=
  ∀ s : State, s.pc = 0xFFFF#16 →
    (needsDisplacement (s.memRead 0xFFFF#16) = true →
      s.fetch = decodeWord (s.memRead 0xFFFF#16) (s.memRead 0x0000#16)) ∧
    (∀ t, step s = .next t → assignsPc s.fetch = false →
      (s.fetch.words = 1 → t.pc = 0x0000#16) ∧ (s.fetch.words = 2 → t.pc = 0x0001#16))

/-- R25 (an inference of the spec from its instruction rules): an instruction changes no register but those
it writes, and what it does depends on no register but those it reads. -/
def Obligations.RegisterUseTable : Prop :=
  (∀ (i : Instr) (s t : State), exec i s = .next t → SameRegsBut (regsWritten i) s t) ∧
  (∀ (i : Instr) (s s' : State), AgreeOn (regsRead i) s s' →
    (∀ t, exec i s = .next t → ∃ t', exec i s' = .next t' ∧ AgreeOn (regsWritten i) t t') ∧
    (∀ f, exec i s = .fault f → exec i s' = .fault f))

/-- R32: no instruction but `store` changes memory. -/
def Obligations.OnlyStoreChangesMemory : Prop :=
  ∀ s t : State, step s = .next t → (∀ d disp a, s.fetch ≠ .store d disp a) → SameMemory s t

/-- R8, R161, R164: a step of a running machine gives a next state unless the first word stands for no
instruction, or `div` has equal d and a fields or a zero divisor; it is never refused.
`UnwrittenRegisterRead` does not occur because every launch of this model gives every register a value
(log entry 1, a choice among R37's two forms), nor `UnspecifiedShift` because both shift functions are
supplied (log entry 5). -/
def Obligations.RunningStepCompletesOrFaultsAsListed : Prop :=
  ∀ s : State, s.status = .running →
    ((∃ t, step s = .next t) ↔
      isIllegal s.fetch = false ∧
        ∀ d a b, s.fetch = .div d a b → d ≠ a ∧ s.readReg b ≠ 0x0000#16) ∧
    (∀ f, step s = .fault f →
      (f = .illegalInstruction s.pc (s.memRead s.pc) ∧ isIllegal s.fetch = true) ∨
      (∃ d a b, s.fetch = .div d a b ∧
        ((d = a ∧ f = .unspecifiedDivOverlap s.pc) ∨
         (d ≠ a ∧ s.readReg b = 0x0000#16 ∧ f = .divideByZero s.pc)))) ∧
    (∀ r, step s ≠ .refused r)

/-- A model fault is precise (the state reported is the state at the start of the step, marked faulted) and
terminal (no step leaves that state), as R162 [D26] says. That a faulted machine answers a further step
with the same fault is the model's inference, log entry 8 (DEDUCED): R162 only says there is no such step. -/
def Obligations.FaultsArePreciseAndTerminal : Prop :=
  ∀ (s : State) (f : Fault), step s = .fault f →
    s.reported.pc = s.pc ∧ s.reported.regs = s.regs ∧ s.reported.mem = s.mem ∧
    s.reported.status = .faulted f ∧ step s.reported = .fault f ∧ s.reported.reported = s.reported

/-- R172 [D17, D26]: the run status is `running` after reset; a step is possible only while it is; `trap`
makes it `ended`, a fault `f` makes it `faulted f`, and neither is ever left. -/
def Obligations.RunStatusChanges : Prop :=
  State.reset.status = .running ∧
  (∀ s t, step s = .next t → s.status = .running) ∧
  (∀ s t, step s = .next t →
    ((∃ d a b, s.fetch = .trap d a b) → t.status = .ended) ∧
    ((∀ d a b, s.fetch ≠ .trap d a b) → t.status = .running)) ∧
  (∀ s f, step s = .fault f → s.reported.status = .faulted f) ∧
  (∀ s : State, s.status ≠ .running → s.reported = s)

/-- R173 [D17]: the run ends when, and only when, a `trap` has executed. The final state has registers and
memory as the program left them and `pc` at the interrupt handler, and no step leaves it. -/
def Obligations.RunEndsExactlyAtTrap : Prop :=
  ∀ s t : State, step s = .next t →
    ((∃ d a b, s.fetch = .trap d a b) ↔ t.status = .ended) ∧
    (t.status = .ended → t.regs = s.regs ∧ t.mem = s.mem ∧ t.pc = Config.interruptHandler ∧
      ∀ u, step t ≠ .next u)

/-- Every step keeps the invariant: memory stays in canonical form (log entry 6) and a hardwired register
0 holds 0x0000 (R22, R23). -/
def Obligations.StepKeepsInvariant : Prop :=
  ∀ s t : State, s.Inv → step s = .next t → t.Inv

/-- The reset state has the invariant that every step keeps: its memory, which lists nothing (log entry 2,
DESIGN CHOICE), is in canonical form (log entry 6, DESIGN CHOICE), and its register 0, if hardwired (OPEN,
log entry 3), holds 0x0000 (R22). -/
def Obligations.ResetHasInvariant : Prop := State.reset.Inv

/-- R34, R36, R190 [D21]: whatever registers and memory the launch supplies, execution starts at 0x0000,
running: the first step executes the instruction whose first word is `mem[0x0000]`. -/
def Obligations.LaunchStartsAtZero : Prop :=
  ∀ (regs : Vector Word 16) (mem : Memory), (State.launch regs mem).pc = 0x0000#16 ∧
    (State.launch regs mem).status = .running ∧
    (∀ addr, (State.launch regs mem).memRead addr = mem.read addr.toNat) ∧
    ∀ i rest, decode [mem.read 0, mem.read 1] = .ok i rest →
      step (State.launch regs mem) = exec i (State.launch regs mem)

/-- The reset state of this model: every register reads 0x0000 (log entry 1; R35 gives it only for R0) and
every word of memory reads 0x0000 (log entry 2). The model's choices, no rule of the spec. -/
def Obligations.ResetRegistersAndMemoryReadZero : Prop :=
  (∀ r, State.reset.readReg r = 0x0000#16) ∧ (∀ addr, State.reset.memRead addr = 0x0000#16)

/-- A word placed by `withFetchWord` is the instruction the very next step runs (log entry 7). -/
def Obligations.PlacedWordRunsNext : Prop :=
  ∀ (s : State) (nbits w : Nat) (i : Instr), decodeTableWord nbits w = some i →
    step (s.withFetchWord nbits w) = exec i (s.withFetchWord nbits w) ∧
    (s.withFetchWord nbits w).pc = s.pc ∧ SameRegsBut [] s (s.withFetchWord nbits w) ∧
    ∀ addr, addr ≠ s.pc → addr ≠ s.pc + 1 →
      (s.withFetchWord nbits w).memRead addr = s.memRead addr

/-- Canonical memories that read alike at every address are equal data (log entry 6). -/
def Obligations.EqualReadsEqualMemories : Prop :=
  ∀ m m' : Memory, m.wf → m'.wf → (∀ a < 65536, m.read a = m'.read a) → m = m'

/-! ## Arithmetic -/

/-- R100 [D8]: `x[d] <- x[a] +16 x[b]`. -/
def Obligations.AddByRule : Prop :=
  ∀ (d a b : Reg) (s : State), DecodesFromRrr 0x0 d a b (.add d a b) ∧
    CompletesWriting (.add d a b) d
      (BitVec.ofNat 16 ((s.readReg a).toNat + (s.readReg b).toNat)) 1 s

/-- R101 [D8]: `x[d] <- x[a] -16 x[b]`. -/
def Obligations.SubByRule : Prop :=
  ∀ (d a b : Reg) (s : State), DecodesFromRrr 0x1 d a b (.sub d a b) ∧
    CompletesWriting (.sub d a b) d
      (BitVec.ofInt 16 ((s.readReg a).toNat - (s.readReg b).toNat)) 1 s

/-- R102, with R105 for `*16` [D8]: `x[d] <- x[a] *16 x[b]`, the same word whether the operands are read
unsigned or signed. -/
def Obligations.MulByRule : Prop :=
  ∀ (d a b : Reg) (s : State), DecodesFromRrr 0x2 d a b (.mul d a b) ∧
    CompletesWriting (.mul d a b) d
      (BitVec.ofNat 16 ((s.readReg a).toNat * (s.readReg b).toNat)) 1 s ∧
    CompletesWriting (.mul d a b) d
      (BitVec.ofInt 16 ((s.readReg a).toInt * (s.readReg b).toInt)) 1 s

/-- R103, R108 [D11, D12, D13]: quotient to d, remainder to a, both of the old contents; equal d and a
fields, and a zero divisor, are model faults, in that order. `divMod` is `DIVMOD` (`DivModByRule`). -/
def Obligations.DivByRule : Prop :=
  ∀ (d a b : Reg) (s : State), DecodesFromRrr 0x3 d a b (.div d a b) ∧
    (d = a → exec (.div d a b) s = .fault (.unspecifiedDivOverlap s.pc)) ∧
    (d ≠ a → s.readReg b = 0x0000#16 → exec (.div d a b) s = .fault (.divideByZero s.pc)) ∧
    (d ≠ a → s.readReg b ≠ 0x0000#16 → ∃ t, exec (.div d a b) s = .next t ∧
      t.readReg d =
        wordAfterWrite d (divMod Config.divConvention (s.readReg a) (s.readReg b)).1 ∧
      t.readReg a =
        wordAfterWrite a (divMod Config.divConvention (s.readReg a) (s.readReg b)).2 ∧
      SameRegsBut [d, a] s t ∧ SameMemory s t ∧ Advanced 1 s t)

/-- R107 [D11]: `DIVMOD` in its three conventions, the first the default; `n = q *16 m +16 r` in each; they
agree on non-negative operands and on a zero dividend; -32768 / -1. -/
def Obligations.DivModByRule : Prop :=
  Config.divConvention = .signedFloor ∧
  divMod .signedFloor 0x8000#16 0xFFFF#16 = (0x8000#16, 0x0000#16) ∧
  divMod .signedTrunc 0x8000#16 0xFFFF#16 = (0x8000#16, 0x0000#16) ∧
  ∀ n m : Word, m ≠ 0x0000#16 →
    (∃ Q R : Int, n.toInt = Q * m.toInt + R ∧
      ((0 ≤ R ∧ R < m.toInt) ∨ (m.toInt < R ∧ R ≤ 0)) ∧
      divMod .signedFloor n m = (BitVec.ofInt 16 Q, BitVec.ofInt 16 R)) ∧
    (∃ Q R : Int, n.toInt = Q * m.toInt + R ∧ |R| < |m.toInt| ∧
      (0 ≤ n.toInt → 0 ≤ R) ∧ (n.toInt ≤ 0 → R ≤ 0) ∧
      divMod .signedTrunc n m = (BitVec.ofInt 16 Q, BitVec.ofInt 16 R)) ∧
    divMod .unsigned n m =
      (BitVec.ofNat 16 (n.toNat / m.toNat), BitVec.ofNat 16 (n.toNat % m.toNat)) ∧
    (∀ c, (divMod c n m).1 * m + (divMod c n m).2 = n) ∧
    (n.toNat ≤ 0x7FFF → m.toNat ≤ 0x7FFF → ∀ c, divMod c n m =
      (BitVec.ofNat 16 (n.toNat / m.toNat), BitVec.ofNat 16 (n.toNat % m.toNat))) ∧
    (n = 0x0000#16 → ∀ c, divMod c n m = (0x0000#16, 0x0000#16))

/-! ## Comparison -/

/-- R110 [D9, D10], with the words of R113: what "<" compares under both values of `CMP_SIGNED`, its default,
and the word `cmplt` writes. -/
def Obligations.CmpltByRule : Prop :=
  Config.cmpSigned = true ∧ Config.boolTrue = 0x0001#16 ∧
  (∀ p q, lessThan true p q = decide (p.toInt < q.toInt)) ∧
  (∀ p q, lessThan false p q = decide (p.toNat < q.toNat)) ∧
  ∀ (d a b : Reg) (s : State), DecodesFromRrr 0x4 d a b (.cmplt d a b) ∧
    CompletesWriting (.cmplt d a b) d
      (if lessThan Config.cmpSigned (s.readReg a) (s.readReg b) = true then 0x0001#16 else 0x0000#16) 1 s

/-- R111 [D10], with the words of R113. -/
def Obligations.CmpeqByRule : Prop :=
  ∀ (d a b : Reg) (s : State), DecodesFromRrr 0x5 d a b (.cmpeq d a b) ∧
    CompletesWriting (.cmpeq d a b) d
      (if s.readReg a = s.readReg b then 0x0001#16 else 0x0000#16) 1 s

/-- R112 [D9, D10], with the words of R113: what ">" compares under both values of `CMP_SIGNED`, the word
`cmpgt` writes, and that exactly one of "<", "=", ">" holds. The last clause, that `cmpgt Rd,Ra,Rb`
equals `cmplt Rd,Rb,Ra`, is the spec's own inference, which R112 marks "[derived: from rule R110]". -/
def Obligations.CmpgtByRule : Prop :=
  Config.cmpSigned = true ∧
  (∀ p q, greaterThan true p q = decide (p.toInt > q.toInt)) ∧
  (∀ p q, greaterThan false p q = decide (p.toNat > q.toNat)) ∧
  (∀ signed p q, (lessThan signed p q, wordsEqual p q, greaterThan signed p q) ∈
    [(true, false, false), (false, true, false), (false, false, true)]) ∧
  ∀ (d a b : Reg) (s : State), DecodesFromRrr 0x6 d a b (.cmpgt d a b) ∧
    CompletesWriting (.cmpgt d a b) d
      (if greaterThan Config.cmpSigned (s.readReg a) (s.readReg b) = true then 0x0001#16
       else 0x0000#16) 1 s ∧
    exec (.cmpgt d a b) s = exec (.cmplt d b a) s

/-- R112: for any operands exactly one of `cmplt`, `cmpeq`, `cmpgt` yields 0x0001 and the other two
0x0000, in a register that is not a hardwired R0. -/
def Obligations.ExactlyOneComparisonHolds : Prop :=
  ∀ (d a b : Reg) (s : State), d ≠ 0 → ∃ t u v,
    exec (.cmplt d a b) s = .next t ∧ exec (.cmpeq d a b) s = .next u ∧
    exec (.cmpgt d a b) s = .next v ∧
    (t.readReg d, u.readReg d, v.readReg d) ∈
      [(0x0001#16, 0x0000#16, 0x0000#16), (0x0000#16, 0x0001#16, 0x0000#16),
       (0x0000#16, 0x0000#16, 0x0001#16)]

/-- R114 [D9]: what each reading compares, and that the two readings agree exactly when bit 15 of both
operands is the same. -/
def Obligations.SignedAndUnsignedReadings : Prop :=
  Config.cmpSigned = true ∧
  ∀ p q : Word,
    lessThan true p q = decide (p.toInt < q.toInt) ∧ lessThan false p q = decide (p.toNat < q.toNat) ∧
    greaterThan true p q = decide (p.toInt > q.toInt) ∧
    greaterThan false p q = decide (p.toNat > q.toNat) ∧
    (lessThan true p q = lessThan false p q ↔ (p.toNat < 0x8000 ↔ q.toNat < 0x8000)) ∧
    (greaterThan true p q = greaterThan false p q ↔ (p.toNat < 0x8000 ↔ q.toNat < 0x8000))

/-! ## Logic and shift opcodes -/

/-- R120, R121, R122, R123, R126 [D14]: the four logic opcodes do nothing but move `pc` past their word,
whatever their fields. -/
def Obligations.LogicOpcodesDoNothing : Prop :=
  ∀ (d a b : Reg) (s : State),
    DecodesFromRrr 0x7 d a b (.inv d a b) ∧ DecodesFromRrr 0x8 d a b (.and d a b) ∧
    DecodesFromRrr 0x9 d a b (.or d a b) ∧ DecodesFromRrr 0xa d a b (.xor d a b) ∧
    ∃ t, exec (.inv d a b) s = .next t ∧ exec (.and d a b) s = .next t ∧
      exec (.or d a b) s = .next t ∧ exec (.xor d a b) s = .next t ∧
      t.regs = s.regs ∧ t.mem = s.mem ∧ Advanced 1 s t

/-- R124 [D15]: `shiftl` is the shared shift operation with `SHIFTL_FN`: without a supplied function it faults, with
one, whatever it is, register d receives its value on the old contents of d, a, b and nothing else
changes. That this model supplies the function is `ShiftsComplete`. -/
def Obligations.ShiftlByRule : Prop :=
  ∀ (d a b : Reg) (s : State), DecodesFromRrr 0xb d a b (.shiftl d a b) ∧
    exec (.shiftl d a b) s = shiftBy Config.shiftlFn d a b s ∧
    shiftBy none d a b s = .fault (.unspecifiedShift s.pc) ∧
    ∀ f : Config.ShiftFn, ∃ t, shiftBy (some f) d a b s = .next t ∧
      t.readReg d = wordAfterWrite d (f (s.readReg d) (s.readReg a) (s.readReg b)) ∧
      SameRegsBut [d] s t ∧ SameMemory s t ∧ Advanced 1 s t

/-- R125 [D15]: `shiftr` is the shared shift operation with `SHIFTR_FN`: without a supplied function it faults, with
one, whatever it is, register d receives its value on the old contents of d, a, b and nothing else
changes. That this model supplies the function is `ShiftsComplete`. -/
def Obligations.ShiftrByRule : Prop :=
  ∀ (d a b : Reg) (s : State), DecodesFromRrr 0xc d a b (.shiftr d a b) ∧
    exec (.shiftr d a b) s = shiftBy Config.shiftrFn d a b s ∧
    shiftBy none d a b s = .fault (.unspecifiedShift s.pc) ∧
    ∀ f : Config.ShiftFn, ∃ t, shiftBy (some f) d a b s = .next t ∧
      t.readReg d = wordAfterWrite d (f (s.readReg d) (s.readReg a) (s.readReg b)) ∧
      SameRegsBut [d] s t ∧ SameMemory s t ∧ Advanced 1 s t

/-- Both shift opcodes complete in every state: this model supplies both functions, each an uninterpreted
constant (log entry 5, a choice that R127 leaves to the model). -/
def Obligations.ShiftsComplete : Prop :=
  ∀ (d a b : Reg) (s : State),
    CompletesWriting (.shiftl d a b) d
      (Config.shiftlValue (s.readReg d) (s.readReg a) (s.readReg b)) 1 s ∧
    CompletesWriting (.shiftr d a b) d
      (Config.shiftrValue (s.readReg d) (s.readReg a) (s.readReg b)) 1 s

/-! ## Trap and undefined words -/

/-- R130, R166 [D16, D17]: `trap` sends `pc` to the interrupt handler and ends the run; nothing else
changes and nothing is saved, whatever its fields. -/
def Obligations.TrapByRule : Prop :=
  ∀ (d a b : Reg) (s : State), DecodesFromRrr 0xd d a b (.trap d a b) ∧
    ∃ t, exec (.trap d a b) s = .next t ∧ t.pc = Config.interruptHandler ∧ t.status = .ended ∧
      t.regs = s.regs ∧ t.mem = s.mem

/-- R131, R132 [D18, D19]: a first word with op 0xe, or with op 0xf and b from 7 on, raises
`IllegalInstruction` with the address and the word, and no state changes. -/
def Obligations.UndefinedWordsFault : Prop :=
  (∀ (w1 : Word) (s : State),
    exec (.illegalXX w1) s = .fault (.illegalInstruction s.pc w1) ∧
    exec (.illegalRxB7 w1) s = .fault (.illegalInstruction s.pc w1) ∧
    exec (.illegalRxB8to15 w1) s = .fault (.illegalInstruction s.pc w1)) ∧
  ∀ (s : State) (w1 : Word), s.status = .running → s.memRead s.pc = w1 →
    (w1.toNat / 4096 = 14 ∨ (w1.toNat / 4096 = 15 ∧ 7 ≤ w1.toNat % 16)) →
    step s = .fault (.illegalInstruction s.pc w1) ∧
      s.reported = s.setStatus (.faulted (.illegalInstruction s.pc w1))

/-! ## Address and memory instructions -/

/-- R141, with R140 for the effective address [D7]: `x[d] <- disp +16 x[a]`; no data access. -/
def Obligations.LeaByRule : Prop :=
  ∀ (d a : Reg) (disp : Word) (s : State), DecodesFromRx 0 d a disp (.lea d disp a) ∧
    CompletesWriting (.lea d disp a) d (BitVec.ofNat 16 (disp.toNat + (s.readReg a).toNat)) 2 s

/-- R142 [D6, D7]: `x[d] <- MemRead(ea, 1)`. -/
def Obligations.LoadByRule : Prop :=
  ∀ (d a : Reg) (disp : Word) (s : State), DecodesFromRx 1 d a disp (.load d disp a) ∧
    CompletesWriting (.load d disp a) d
      (s.memRead (BitVec.ofNat 16 (disp.toNat + (s.readReg a).toNat))) 2 s

/-- R143 [D6, D7]: `MemWrite(ea, 1, x[d])`: the one word at the effective address, and no other word and
no register. -/
def Obligations.StoreByRule : Prop :=
  ∀ (d a : Reg) (disp : Word) (s : State), DecodesFromRx 2 d a disp (.store d disp a) ∧
    (s.effectiveAddress disp a).toNat = (disp.toNat + (s.readReg a).toNat) % 65536 ∧
    ∃ t, exec (.store d disp a) s = .next t ∧
      t.memRead (s.effectiveAddress disp a) = s.readReg d ∧
      (∀ addr, addr ≠ s.effectiveAddress disp a → t.memRead addr = s.memRead addr) ∧
      SameRegsBut [] s t ∧ Advanced 2 s t

/-- R54 (1) and (3) [D22]: a `load` from the address of the `store` just executed returns the word stored,
and a `load` from any other address returns what it would have returned before the `store`. -/
def Obligations.LoadAfterStore : Prop :=
  ∀ (d a d' a' : Reg) (disp disp' : Word) (s t u : State),
    exec (.store d disp a) s = .next t → exec (.load d' disp' a') t = .next u →
    (t.effectiveAddress disp' a' = s.effectiveAddress disp a →
      u.readReg d' = wordAfterWrite d' (s.readReg d)) ∧
    (t.effectiveAddress disp' a' ≠ s.effectiveAddress disp a →
      u.readReg d' = wordAfterWrite d' (s.memRead (t.effectiveAddress disp' a')))

/-- R57 [D23]: a `store` is seen by the very next fetch, as a first word or as a displacement, and does not
affect the instruction that executes it. -/
def Obligations.StoreSeenByNextFetch : Prop :=
  ∀ (d a : Reg) (disp : Word) (s t : State) (i : Instr) (rest : List Word), s.status = .running →
    s.fetch = .store d disp a → step s = .next t →
    (s.effectiveAddress disp a = t.pc →
      decode [s.readReg d, s.memRead (t.pc + 1)] = .ok i rest → step t = exec i t) ∧
    (s.effectiveAddress disp a = t.pc + 1 →
      decode [s.memRead t.pc, s.readReg d] = .ok i rest → step t = exec i t)

/-! ## Control transfers -/

/-- R150 [D7, D20]: `pc <- ea`. -/
def Obligations.JumpByRule : Prop :=
  ∀ (d a : Reg) (disp : Word) (s : State), DecodesFromRx 3 d a disp (.jump d disp a) ∧
    CompletesJumping (.jump d disp a) (BitVec.ofNat 16 (disp.toNat + (s.readReg a).toNat)) s

/-- R151 [D7]: taken when all 16 bits of register d are zero, else on to the next instruction. -/
def Obligations.JumpfByRule : Prop :=
  ∀ (d a : Reg) (disp : Word) (s : State), DecodesFromRx 4 d a disp (.jumpf d disp a) ∧
    CompletesJumping (.jumpf d disp a)
      (if (s.readReg d).toNat = 0 then BitVec.ofNat 16 (disp.toNat + (s.readReg a).toNat)
       else BitVec.ofNat 16 (s.pc.toNat + 2)) s

/-- R152 [D7]: taken when register d holds any nonzero word, else on to the next instruction. -/
def Obligations.JumptByRule : Prop :=
  ∀ (d a : Reg) (disp : Word) (s : State), DecodesFromRx 5 d a disp (.jumpt d disp a) ∧
    CompletesJumping (.jumpt d disp a)
      (if (s.readReg d).toNat ≠ 0 then BitVec.ofNat 16 (disp.toNat + (s.readReg a).toNat)
       else BitVec.ofNat 16 (s.pc.toNat + 2)) s

/-- R153 [D5, D7, D25]: the address of the next instruction to d, the effective address of the old register
a to `pc`, also when d = a. -/
def Obligations.JalByRule : Prop :=
  ∀ (d a : Reg) (disp : Word) (s : State), DecodesFromRx 6 d a disp (.jal d disp a) ∧
    ∃ t, exec (.jal d disp a) s = .next t ∧
      t.pc = BitVec.ofNat 16 (disp.toNat + (s.readReg a).toNat) ∧
      t.readReg d = wordAfterWrite d (BitVec.ofNat 16 (s.pc.toNat + 2)) ∧
      SameRegsBut [d] s t ∧ SameMemory s t ∧ t.status = s.status

/-- R154, R78 (an inference of the spec from R150 and R153): `jump 0[Rd]` from any state in which register d
still holds what `jal Rd,...` wrote there returns to the instruction after the `jal`; with a hardwired
R0 as the link register the link is lost, so d is not 0. -/
def Obligations.JumpThroughLinkReturns : Prop :=
  ∀ (d a d' : Reg) (disp : Word) (s t u : State), d ≠ 0 → exec (.jal d disp a) s = .next t →
    u.readReg d = t.readReg d → ∃ v, exec (.jump d' 0x0000#16 d) u = .next v ∧ v.pc = s.pc + 2

/-- R152: in every state exactly one of `jumpf` and `jumpt` on the same operands is taken: one goes to the
effective address, the other to the next instruction. -/
def Obligations.ExactlyOneConditionalTaken : Prop :=
  ∀ (d a : Reg) (disp : Word) (s : State), ∃ t u,
    exec (.jumpf d disp a) s = .next t ∧ exec (.jumpt d disp a) s = .next u ∧
    ((t.pc = s.effectiveAddress disp a ∧ u.pc = s.pc + 2) ∨
     (t.pc = s.pc + 2 ∧ u.pc = s.effectiveAddress disp a))
end

