-- ==== Sys2Proof/Laws/Assembly.lean ====
section
/-! SUPPORT. The text functions of Machine/Assembly.lean lose nothing (R79): each is injective, because a
separator never occurs in the part before it. -/

namespace Sys2Proof.Machine

theorem append_separator_inj {α : Type} {c : α} : ∀ {l m r t : List α}, c ∉ l → c ∉ m →
    l ++ c :: r = m ++ c :: t → l = m ∧ r = t := by
  intro l
  induction l with
  | nil =>
    intro m r t _ hm h
    cases m with
    | nil => simpa using h
    | cons x m => simp at h hm; exact absurd h.1 hm.1
  | cons x l ih =>
    intro m r t hl hm h
    cases m with
    | nil => simp at h hl; exact absurd h.1.symm hl.1
    | cons y m =>
      simp only [List.cons_append, List.cons.injEq, List.mem_cons, not_or] at h hl hm
      obtain ⟨rfl, rfl⟩ := ih hl.2 hm.2 h.2
      exact ⟨by rw [h.1], rfl⟩

theorem not_mem_repr {c : Char} (hc : c.isDigit = false) (n : Nat) : c ∉ n.repr.toList := fun h => by
  have := Nat.isDigit_of_mem_toDigits (b := 10) (by decide) (by decide) (by simpa [Nat.repr] using h)
  simp [hc] at this

theorem repr_toList_inj {m n : Nat} : m.repr.toList = n.repr.toList ↔ m = n :=
  ⟨fun h => Nat.repr_injective (String.toList_inj.mp h), fun h => h ▸ rfl⟩

/-- Words before the first space agree, and so does the text after it. -/
theorem text_after_space_inj {mn mn' body body' : String} (h : ' ' ∉ mn.toList) (h' : ' ' ∉ mn'.toList)
    (he : mn ++ " " ++ body = mn' ++ " " ++ body') : mn = mn' ∧ body = body' := by
  have := congrArg String.toList he
  simp only [String.toList_append, List.append_assoc] at this
  obtain ⟨h1, h2⟩ := append_separator_inj h h' this
  exact ⟨String.toList_inj.mp h1, String.toList_inj.mp h2⟩

theorem regText_toList (r : Reg) : (regText r).toList = 'R' :: r.val.repr.toList := by
  rw [regText, String.toList_append]; rfl

theorem rrrText_toList (mn : String) (d a b : Reg) : (rrrText mn d a b).toList =
    mn.toList ++ ' ' :: 'R' :: (d.val.repr.toList ++ ',' :: 'R' :: (a.val.repr.toList ++
      ',' :: 'R' :: b.val.repr.toList)) := by
  simp [rrrText, regText_toList]

theorem indexedText_toList (disp : Word) (a : Reg) : (indexedText disp a).toList =
    disp.toNat.repr.toList ++ '[' :: 'R' :: (a.val.repr.toList ++ [']']) := by
  simp [indexedText, regText_toList]

theorem rxText_toList (mn : String) (d : Reg) (disp : Word) (a : Reg) : (rxText mn d disp a).toList =
    mn.toList ++ ' ' :: 'R' :: (d.val.repr.toList ++ ',' :: (indexedText disp a).toList) := by
  simp [rxText, regText_toList]

theorem rrrText_inj {mn : String} {d a b d' a' b' : Reg} (h : rrrText mn d a b = rrrText mn d' a' b') :
    d = d' ∧ a = a' ∧ b = b' := by
  have h := congrArg String.toList h
  simp only [rrrText_toList, List.append_cancel_left_eq, List.cons.injEq, true_and] at h
  obtain ⟨h1, h⟩ := append_separator_inj (not_mem_repr rfl _) (not_mem_repr rfl _) h
  simp only [List.cons.injEq, true_and] at h
  obtain ⟨h2, h⟩ := append_separator_inj (not_mem_repr rfl _) (not_mem_repr rfl _) h
  simp only [List.cons.injEq, true_and] at h
  exact ⟨Fin.ext (repr_toList_inj.mp h1), Fin.ext (repr_toList_inj.mp h2), Fin.ext (repr_toList_inj.mp h)⟩

theorem indexedText_inj {disp disp' : Word} {a a' : Reg} (h : indexedText disp a = indexedText disp' a') :
    disp = disp' ∧ a = a' := by
  have h := congrArg String.toList h
  simp only [indexedText_toList] at h
  obtain ⟨h1, h⟩ := append_separator_inj (not_mem_repr rfl _) (not_mem_repr rfl _) h
  simp only [List.cons.injEq, true_and, List.append_cancel_right_eq] at h
  exact ⟨BitVec.eq_of_toNat_eq (repr_toList_inj.mp h1), Fin.ext (repr_toList_inj.mp h)⟩

theorem rxText_inj {mn : String} {d a d' a' : Reg} {disp disp' : Word}
    (h : rxText mn d disp a = rxText mn d' disp' a') : d = d' ∧ disp = disp' ∧ a = a' := by
  have h := congrArg String.toList h
  simp only [rxText_toList, List.append_cancel_left_eq, List.cons.injEq, true_and] at h
  obtain ⟨h1, h⟩ := append_separator_inj (not_mem_repr rfl _) (not_mem_repr rfl _) h
  exact ⟨Fin.ext (repr_toList_inj.mp h1), indexedText_inj (String.toList_inj.mp h)⟩

/-- No mnemonic holds a space, so the printed form tells it from its operands. -/
theorem space_not_in_mnemonicOf (i : Instr) : ' ' ∉ (mnemonicOf i).toList := by
  cases i <;> simp [mnemonicOf]

end Sys2Proof.Machine
end

