-- ==== Sys2Proof/Laws/Decode.lean ====
section
/-! SUPPORT. The fields of a word as quotients and remainders (R5, R61), the fields of the words the
encoder writes (R76, R77), and what `decode` does with two or more words. -/

namespace Sys2Proof

theorem opField_eq (w : Word) : opField w = w.toNat / 4096 := by
  have := w.isLt
  simp only [opField, bits]; omega

theorem bCode_eq (w : Word) : bCode w = w.toNat % 16 := by simp [bCode, bits]

theorem dField_val (w : Word) : (dField w).val = w.toNat / 256 % 16 := by simp [dField, bits]

theorem aField_val (w : Word) : (aField w).val = w.toNat / 16 % 16 := by simp [aField, bits]

theorem bField_val (w : Word) : (bField w).val = w.toNat % 16 := by simp [bField, bCode, bits]

theorem needsDisplacement_iff (w : Word) :
    needsDisplacement w = true ↔ w.toNat / 4096 = 15 ∧ w.toNat % 16 ≤ 6 := by
  simp [needsDisplacement, opField_eq, bCode_eq]

/-- The number a word with the four given fields stands for. -/
theorem rrrWord_toNat {op : Nat} (hop : op < 16) (d a b : Reg) :
    (rrrWord op d a b).toNat = op * 4096 + d.val * 256 + a.val * 16 + b.val := by
  have := d.isLt; have := a.isLt; have := b.isLt
  simp only [rrrWord, BitVec.toNat_ofNat]; omega

theorem opField_rrrWord {op : Nat} (hop : op < 16) (d a b : Reg) : opField (rrrWord op d a b) = op := by
  rw [opField_eq, rrrWord_toNat hop]; omega

theorem bCode_rrrWord {op : Nat} (hop : op < 16) (d a b : Reg) : bCode (rrrWord op d a b) = b.val := by
  rw [bCode_eq, rrrWord_toNat hop]; omega

theorem dField_rrrWord {op : Nat} (hop : op < 16) (d a b : Reg) : dField (rrrWord op d a b) = d := by
  apply Fin.ext; rw [dField_val, rrrWord_toNat hop]; omega

theorem aField_rrrWord {op : Nat} (hop : op < 16) (d a b : Reg) : aField (rrrWord op d a b) = a := by
  apply Fin.ext; rw [aField_val, rrrWord_toNat hop]; omega

theorem bField_rrrWord {op : Nat} (hop : op < 16) (d a b : Reg) : bField (rrrWord op d a b) = b := by
  apply Fin.ext; rw [bField_val, rrrWord_toNat hop]; omega

/-- The first word of an RX or X instruction is the word with op 15 and its code in the b field. -/
theorem rxWords_eq (b d a : Reg) (disp : Word) : rxWords b.val d a disp = [rrrWord 15 d a b, disp] := by
  simp only [rxWords, rrrWord]

/-- Equal fields, equal words. -/
theorem rrrWord_of_fields (w : Word) : rrrWord (opField w) (dField w) (aField w) (bField w) = w := by
  have hw := w.isLt
  apply BitVec.eq_of_toNat_eq
  rw [rrrWord_toNat (by rw [opField_eq]; omega), opField_eq, dField_val, aField_val, bField_val]
  omega

/-- What `decode` answers where there are two words or more. -/
theorem decode_two (w1 w2 : Word) (rest : List Word) :
    decode (w1 :: w2 :: rest) =
      if needsDisplacement w1 then .ok (decodeWord w1 w2) rest
      else .ok (decodeWord w1 0x0000#16) (w2 :: rest) := rfl

/-- What `decode` answers for one word that needs no displacement. -/
theorem decode_one {w1 : Word} (h : needsDisplacement w1 = false) (rest : List Word) :
    decode (w1 :: rest) = .ok (decodeWord w1 0x0000#16) rest := by
  cases rest <;> simp [decode, h]

end Sys2Proof
end

