-- ==== Sys2Proof/Laws/State.lean ====
section
/-! SUPPORT. What each update leaves in each field, and the register laws of R22 and R23. Later proofs
cite these and unfold no update. -/

namespace Sys2Proof.Machine

/-! One lemma per field per update. -/

@[simp] theorem setPc_pc (s : State) (v : Word) : (s.setPc v).pc = v := rfl
@[simp] theorem setPc_regs (s : State) (v : Word) : (s.setPc v).regs = s.regs := rfl
@[simp] theorem setPc_mem (s : State) (v : Word) : (s.setPc v).mem = s.mem := rfl
@[simp] theorem setPc_status (s : State) (v : Word) : (s.setPc v).status = s.status := rfl

@[simp] theorem setStatus_pc (s : State) (v : RunStatus) : (s.setStatus v).pc = s.pc := rfl
@[simp] theorem setStatus_regs (s : State) (v : RunStatus) : (s.setStatus v).regs = s.regs := rfl
@[simp] theorem setStatus_mem (s : State) (v : RunStatus) : (s.setStatus v).mem = s.mem := rfl
@[simp] theorem setStatus_status (s : State) (v : RunStatus) : (s.setStatus v).status = v := rfl

@[simp] theorem setMem_pc (s : State) (m : Memory) : (s.setMem m).pc = s.pc := rfl
@[simp] theorem setMem_regs (s : State) (m : Memory) : (s.setMem m).regs = s.regs := rfl
@[simp] theorem setMem_mem (s : State) (m : Memory) : (s.setMem m).mem = m := rfl
@[simp] theorem setMem_status (s : State) (m : Memory) : (s.setMem m).status = s.status := rfl

@[simp] theorem setReg_pc (s : State) (r : Reg) (v : Word) : (s.setReg r v).pc = s.pc := rfl
@[simp] theorem setReg_regs (s : State) (r : Reg) (v : Word) :
    (s.setReg r v).regs = s.regs.set r.val v r.isLt := rfl
@[simp] theorem setReg_mem (s : State) (r : Reg) (v : Word) : (s.setReg r v).mem = s.mem := rfl
@[simp] theorem setReg_status (s : State) (r : Reg) (v : Word) : (s.setReg r v).status = s.status := rfl

@[simp] theorem advance_pc (s : State) (n : Nat) : (s.advance n).pc = s.pc + BitVec.ofNat 16 n := rfl
@[simp] theorem advance_regs (s : State) (n : Nat) : (s.advance n).regs = s.regs := rfl
@[simp] theorem advance_mem (s : State) (n : Nat) : (s.advance n).mem = s.mem := rfl
@[simp] theorem advance_status (s : State) (n : Nat) : (s.advance n).status = s.status := rfl

@[simp] theorem takeTrap_pc (s : State) : s.takeTrap.pc = Config.interruptHandler := rfl
@[simp] theorem takeTrap_regs (s : State) : s.takeTrap.regs = s.regs := rfl
@[simp] theorem takeTrap_mem (s : State) : s.takeTrap.mem = s.mem := rfl
@[simp] theorem takeTrap_status (s : State) : s.takeTrap.status = .ended := rfl

@[simp] theorem memWrite_pc (s : State) (x v : Word) : (s.memWrite x v).pc = s.pc := rfl
@[simp] theorem memWrite_regs (s : State) (x v : Word) : (s.memWrite x v).regs = s.regs := rfl
@[simp] theorem memWrite_mem (s : State) (x v : Word) :
    (s.memWrite x v).mem = s.mem.write x.toNat v := rfl
@[simp] theorem memWrite_status (s : State) (x v : Word) : (s.memWrite x v).status = s.status := rfl

@[simp] theorem recordFault_pc (s : State) (f : Fault) : (s.recordFault f).pc = s.pc := rfl
@[simp] theorem recordFault_regs (s : State) (f : Fault) : (s.recordFault f).regs = s.regs := rfl
@[simp] theorem recordFault_mem (s : State) (f : Fault) : (s.recordFault f).mem = s.mem := rfl
@[simp] theorem recordFault_status (s : State) (f : Fault) : (s.recordFault f).status = .faulted f := rfl

/-! Reads of an updated state, where the update does not touch what is read. -/

theorem readReg_congr {s t : State} (h : t.regs = s.regs) (r : Reg) : t.readReg r = s.readReg r := by
  simp [State.readReg, h]

theorem memRead_congr {s t : State} (h : t.mem = s.mem) (x : Word) : t.memRead x = s.memRead x := by
  simp [State.memRead, h]

@[simp] theorem readReg_setPc (s : State) (v : Word) (r : Reg) : (s.setPc v).readReg r = s.readReg r := rfl
@[simp] theorem readReg_setStatus (s : State) (v : RunStatus) (r : Reg) :
    (s.setStatus v).readReg r = s.readReg r := rfl
@[simp] theorem readReg_advance (s : State) (n : Nat) (r : Reg) :
    (s.advance n).readReg r = s.readReg r := rfl
@[simp] theorem readReg_memWrite (s : State) (x v : Word) (r : Reg) :
    (s.memWrite x v).readReg r = s.readReg r := rfl
@[simp] theorem readReg_takeTrap (s : State) (r : Reg) : s.takeTrap.readReg r = s.readReg r := rfl

@[simp] theorem memRead_setPc (s : State) (v x : Word) : (s.setPc v).memRead x = s.memRead x := rfl
@[simp] theorem memRead_setStatus (s : State) (v : RunStatus) (x : Word) :
    (s.setStatus v).memRead x = s.memRead x := rfl
@[simp] theorem memRead_advance (s : State) (n : Nat) (x : Word) :
    (s.advance n).memRead x = s.memRead x := rfl
@[simp] theorem memRead_takeTrap (s : State) (x : Word) : s.takeTrap.memRead x = s.memRead x := rfl

/-! The register file (R22, R23). -/

/-- R22 in its own words. -/
theorem readReg_eq (s : State) (r : Reg) :
    s.readReg r = if r = 0 ∧ Config.r0HardwiredZero = true then 0x0000#16 else s.regs[r] := by
  unfold State.readReg
  by_cases h : s.regs[r.val] = 0x0000#16 <;> simp [h]

/-- R23 in its own words. -/
theorem writeReg_eq (s : State) (r : Reg) (v : Word) :
    s.writeReg r v = if r = 0 ∧ Config.r0HardwiredZero = true then s else s.setReg r v := by
  unfold State.writeReg
  by_cases h : v = s.regs[r.val]
  · subst h
    have same : s.setReg r s.regs[r.val] = s := by simp [State.setReg]
    simp [same]
  · simp [h]

@[simp] theorem writeReg_pc (s : State) (r : Reg) (v : Word) : (s.writeReg r v).pc = s.pc := by
  rw [writeReg_eq]; split <;> rfl
@[simp] theorem writeReg_mem (s : State) (r : Reg) (v : Word) : (s.writeReg r v).mem = s.mem := by
  rw [writeReg_eq]; split <;> rfl
@[simp] theorem writeReg_status (s : State) (r : Reg) (v : Word) :
    (s.writeReg r v).status = s.status := by
  rw [writeReg_eq]; split <;> rfl
@[simp] theorem memRead_writeReg (s : State) (r : Reg) (v x : Word) :
    (s.writeReg r v).memRead x = s.memRead x := memRead_congr (writeReg_mem s r v) x

/-- The register written reads as R22 and R23 say. -/
@[simp] theorem readReg_writeReg_same (s : State) (d : Reg) (v : Word) :
    (s.writeReg d v).readReg d = wordAfterWrite d v := by
  rw [readReg_eq, writeReg_eq, wordAfterWrite]
  split
  · rfl
  · simp

/-- Every other register reads as before. -/
@[simp] theorem readReg_writeReg_of_ne (s : State) {d r : Reg} (v : Word) (h : r ≠ d) :
    (s.writeReg d v).readReg r = s.readReg r := by
  rw [readReg_eq, readReg_eq, writeReg_eq]
  have h' : d.val ≠ r.val := fun e => h (Fin.ext e.symm)
  by_cases hd : d = 0 ∧ Config.r0HardwiredZero = true
  · rw [if_pos hd]
  · rw [if_neg hd]
    simp [h']

/-- A write to a hardwired register 0 keeps the word it holds; any other write to register 0 happens only
where it is not hardwired. -/
theorem writeReg_keeps_hardwired (s : State) (d : Reg) (v : Word)
    (h : Config.r0HardwiredZero = true → s.regs[0] = 0x0000#16) :
    Config.r0HardwiredZero = true → (s.writeReg d v).regs[0] = 0x0000#16 := by
  intro hz
  rw [writeReg_eq]
  by_cases hd : d = 0
  · simp [hd, hz, h hz]
  · have hd' : d.val ≠ 0 := fun e => hd (Fin.ext e)
    simp [hd, hd', h hz]

/-- The state after a register write is in the frame of that register. -/
theorem sameRegsBut_writeReg (s : State) (d : Reg) (v : Word) : SameRegsBut [d] s (s.writeReg d v) := by
  intro r hr
  exact readReg_writeReg_of_ne s v (by simpa using hr)

end Sys2Proof.Machine
end

