-- ==== Sys2Proof/Laws/Memory.lean ====
section
/-! SUPPORT. The memory laws (R41, R42, R54): a word written is read back, no other word changes, and
every operation keeps the canonical form. -/

namespace Sys2Proof.Machine

theorem Memory.read_erase_same (m : Memory) (a : Nat) :
    (m.erase a).read a = Config.unlistedWord := by
  induction m with
  | nil => rfl
  | cons c m ih =>
    by_cases h : c.1 = a
    · simpa [Memory.erase, h] using ih
    · simpa [Memory.erase, Memory.read, h] using ih

theorem Memory.read_erase_of_ne (m : Memory) {a b : Nat} (hab : b ≠ a) :
    (m.erase a).read b = m.read b := by
  induction m with
  | nil => rfl
  | cons c m ih =>
    by_cases h : c.1 = a
    · have hb : c.1 ≠ b := fun e => hab (e.symm.trans h)
      simpa [Memory.erase, Memory.read, h, h ▸ hb] using ih
    · by_cases hb : c.1 = b
      · simp [Memory.erase, Memory.read, hb, hab]
      · simpa [Memory.erase, Memory.read, h, hb] using ih

theorem Memory.not_mem_erase (m : Memory) (a : Nat) : ∀ c ∈ m.erase a, c.1 ≠ a := by
  intro c hc
  simpa [Memory.erase] using (List.mem_filter.mp hc).2

theorem Memory.read_insert_same (m : Memory) (a : Nat) (v : Word) (h : ∀ c ∈ m, c.1 ≠ a) :
    (m.insert a v).read a = v := by
  induction m with
  | nil => simp [Memory.insert, Memory.read]
  | cons c m ih =>
    have hc : c.1 ≠ a := h c (by simp)
    by_cases hlt : a < c.1
    · simp [Memory.insert, Memory.read, hlt]
    · simpa [Memory.insert, Memory.read, hlt, hc] using ih (fun e he => h e (by simp [he]))

theorem Memory.read_insert_of_ne (m : Memory) {a b : Nat} (v : Word) (hab : b ≠ a) :
    (m.insert a v).read b = m.read b := by
  induction m with
  | nil => simp [Memory.insert, Memory.read, hab.symm]
  | cons c m ih =>
    by_cases hlt : a < c.1
    · simp [Memory.insert, Memory.read, hlt, hab.symm]
    · by_cases hb : c.1 = b
      · have hlt' : ¬ a < b := hb ▸ hlt
        simp [Memory.insert, Memory.read, hlt', hb]
      · simpa [Memory.insert, Memory.read, hlt, hb] using ih

/-- A read after a write to the same address gives the word written. -/
@[simp] theorem Memory.read_write_same (m : Memory) (a : Nat) (v : Word) :
    (m.write a v).read a = v := by
  unfold Memory.write
  split
  · rename_i h; rw [h]; exact Memory.read_erase_same m a
  · exact Memory.read_insert_same _ _ _ (Memory.not_mem_erase m a)

/-- A write leaves every other address as it was. -/
@[simp] theorem Memory.read_write_of_ne (m : Memory) {a b : Nat} (v : Word) (hab : b ≠ a) :
    (m.write a v).read b = m.read b := by
  unfold Memory.write
  split
  · exact Memory.read_erase_of_ne m hab
  · rw [Memory.read_insert_of_ne _ v hab, Memory.read_erase_of_ne m hab]

theorem Memory.wf_nil : Memory.wf [] := by simp [Memory.wf]

theorem Memory.mem_insert (m : Memory) (a : Nat) (v : Word) (c : Cell) :
    c ∈ m.insert a v ↔ c = (a, v) ∨ c ∈ m := by
  induction m with
  | nil => simp [Memory.insert]
  | cons e m ih =>
    unfold Memory.insert
    split
    · simp
    · simp only [List.mem_cons, ih]; tauto

theorem Memory.rising_insert (m : Memory) (a : Nat) (v : Word)
    (h : m.Pairwise (fun c e => c.1 < e.1)) (ha : ∀ c ∈ m, c.1 ≠ a) :
    (m.insert a v).Pairwise (fun c e => c.1 < e.1) := by
  induction m with
  | nil => simp [Memory.insert]
  | cons c m ih =>
    have hc := List.pairwise_cons.mp h
    have hca : c.1 ≠ a := ha c (by simp)
    unfold Memory.insert
    split
    · rename_i hlt
      refine List.pairwise_cons.mpr ⟨?_, h⟩
      intro e he
      rcases List.mem_cons.mp he with rfl | he
      · exact hlt
      · exact Nat.lt_trans hlt (hc.1 e he)
    · rename_i hlt
      refine List.pairwise_cons.mpr ⟨?_, ih hc.2 (fun e he => ha e (by simp [he]))⟩
      intro e he
      rcases (Memory.mem_insert m a v e).mp he with rfl | he
      · simp only; omega
      · exact hc.1 e he

theorem Memory.wf_erase {m : Memory} (h : m.wf) (a : Nat) : (m.erase a).wf :=
  ⟨h.1.filter _, fun c hc => h.2 c (List.mem_filter.mp hc).1⟩

/-- A write to an address below 65536 keeps the canonical form. -/
theorem Memory.wf_write {m : Memory} (h : m.wf) {a : Nat} (ha : a < 65536) (v : Word) :
    (m.write a v).wf := by
  unfold Memory.write
  split
  · exact Memory.wf_erase h a
  · rename_i hv
    have he := Memory.wf_erase h a
    refine ⟨Memory.rising_insert _ _ _ he.1 (Memory.not_mem_erase m a), ?_⟩
    intro c hc
    rcases (Memory.mem_insert _ _ _ _).mp hc with rfl | hc
    · exact ⟨ha, hv⟩
    · exact he.2 c hc

/-- `MemWrite` keeps the canonical form. -/
theorem memWrite_wf (s : State) (x v : Word) (h : s.mem.wf) : (s.memWrite x v).mem.wf :=
  Memory.wf_write h x.isLt v

/-- R54 (1), R42: the word stored is read back. -/
@[simp] theorem memRead_memWrite_same (s : State) (x v : Word) : (s.memWrite x v).memRead x = v :=
  Memory.read_write_same _ _ _

/-- R54 (3), R42: no other word changes. -/
@[simp] theorem memRead_memWrite_of_ne (s : State) {x y : Word} (v : Word) (h : y ≠ x) :
    (s.memWrite x v).memRead y = s.memRead y :=
  Memory.read_write_of_ne _ _ (fun e => h (BitVec.eq_of_toNat_eq e))

end Sys2Proof.Machine
end

