-- ==== Sys2Proof/Laws/Ops.lean ====
section
/-! SUPPORT. One lemma per shared operation that says everything it can do; the provers cite these and do
not unfold the operation. -/

namespace Sys2Proof.Machine

theorem advance_advanced (s : State) (n : Nat) : Advanced n s (s.advance n) := by
  refine ⟨?_, rfl⟩
  simp [BitVec.toNat_add]

/-- An RRR write always completes, with the frame of its register. -/
theorem rrrWrite_next (f : Word → Word → Word) (d a b : Reg) (s : State) :
    ∃ t, rrrWrite f d a b s = .next t ∧
      t.readReg d = wordAfterWrite d (f (s.readReg a) (s.readReg b)) ∧
      SameRegsBut [d] s t ∧ t.mem = s.mem ∧ t.pc = s.pc + 1 ∧ t.status = s.status := by
  refine ⟨_, rfl, ?_, ?_, ?_, ?_, ?_⟩
  · exact readReg_writeReg_same _ _ _
  · exact sameRegsBut_writeReg (s.advance 1) d _
  all_goals simp

/-- A no-operation always completes and touches only `pc`. -/
theorem noOperation_next (s : State) : noOperation s = .next (s.advance 1) := rfl

/-- A shift opcode completes exactly when its function is supplied. -/
theorem shiftBy_some (f : Config.ShiftFn) (d a b : Reg) (s : State) :
    ∃ t, shiftBy (some f) d a b s = .next t ∧
      t.readReg d = wordAfterWrite d (f (s.readReg d) (s.readReg a) (s.readReg b)) ∧
      SameRegsBut [d] s t ∧ t.mem = s.mem ∧ t.pc = s.pc + 1 ∧ t.status = s.status := by
  refine ⟨_, rfl, ?_, ?_, ?_, ?_, ?_⟩
  · exact readReg_writeReg_same _ _ _
  · exact sameRegsBut_writeReg (s.advance 1) d _
  all_goals simp

theorem shiftBy_none (d a b : Reg) (s : State) :
    shiftBy none d a b s = .fault (.unspecifiedShift s.pc) := rfl

/-- The effective address as a number (R43, R140). -/
theorem effectiveAddress_toNat (s : State) (disp : Word) (a : Reg) :
    (s.effectiveAddress disp a).toNat = (disp.toNat + (s.readReg a).toNat) % 65536 := by
  simp [State.effectiveAddress, BitVec.toNat_add]

/-- The two readings of a word (R6) are the library's. -/
theorem signedValue_eq_toInt (w : Word) : signedValue w = w.toInt := by
  have := w.isLt
  unfold signedValue
  rw [BitVec.toInt_eq_toNat_cond]
  split <;> split <;> omega

theorem unsignedValue_eq_toNat (w : Word) : unsignedValue w = w.toNat := rfl

/-- The truth value of a relation as a word (R113). -/
theorem boolWord_eq (c : Bool) : boolWord c = if c then 0x0001#16 else 0x0000#16 := rfl

/-- The fetch reads what `decode` reads from the two words at `pc`. -/
theorem decode_fetch (s : State) :
    decode [s.memRead s.pc, s.memRead (s.pc + 1)] =
      .ok s.fetch (if needsDisplacement (s.memRead s.pc) then [] else [s.memRead (s.pc + 1)]) := by
  rw [decode_two, State.fetch]
  split <;> rfl

/-- Everything a step can do, by the run status (R172). -/
theorem step_running {s : State} (h : s.status = .running) : step s = exec s.fetch s := by
  unfold step; rw [h]

theorem step_ended {s : State} (h : s.status = .ended) : step s = .refused .runEnded := by
  unfold step; rw [h]

theorem step_faulted {s : State} {f : Fault} (h : s.status = .faulted f) : step s = .fault f := by
  unfold step; rw [h]

theorem running_of_step_next {s t : State} (h : step s = .next t) : s.status = .running := by
  cases hs : s.status with
  | running => rfl
  | ended => rw [step_ended hs] at h; cases h
  | faulted f => rw [step_faulted hs] at h; cases h

theorem exec_of_step_next {s t : State} (h : step s = .next t) : exec s.fetch s = .next t := by
  rw [← step_running (running_of_step_next h)]; exact h

end Sys2Proof.Machine
end

