-- ==== Sys2Proof/Laws/PerInstr.lean ====
section
/-! SUPPORT. The per-instruction family `WordCount`: the encoder writes as many words as the instruction
occupies (R60, R63). -/

/-- The encoded instruction has `words` words. -/
def Sys2Proof.Laws.WordCount.Statement (i : Sys2Proof.Instr) : Prop :=
  (Sys2Proof.encode i).length = i.words

theorem Sys2Proof.Laws.WordCount.add (d a b : Sys2Proof.Reg) :
    Sys2Proof.Laws.WordCount.Statement (.add d a b) := rfl
theorem Sys2Proof.Laws.WordCount.sub (d a b : Sys2Proof.Reg) :
    Sys2Proof.Laws.WordCount.Statement (.sub d a b) := rfl
theorem Sys2Proof.Laws.WordCount.mul (d a b : Sys2Proof.Reg) :
    Sys2Proof.Laws.WordCount.Statement (.mul d a b) := rfl
theorem Sys2Proof.Laws.WordCount.div (d a b : Sys2Proof.Reg) :
    Sys2Proof.Laws.WordCount.Statement (.div d a b) := rfl
theorem Sys2Proof.Laws.WordCount.cmplt (d a b : Sys2Proof.Reg) :
    Sys2Proof.Laws.WordCount.Statement (.cmplt d a b) := rfl
theorem Sys2Proof.Laws.WordCount.cmpeq (d a b : Sys2Proof.Reg) :
    Sys2Proof.Laws.WordCount.Statement (.cmpeq d a b) := rfl
theorem Sys2Proof.Laws.WordCount.cmpgt (d a b : Sys2Proof.Reg) :
    Sys2Proof.Laws.WordCount.Statement (.cmpgt d a b) := rfl
theorem Sys2Proof.Laws.WordCount.inv (d a b : Sys2Proof.Reg) :
    Sys2Proof.Laws.WordCount.Statement (.inv d a b) := rfl
theorem Sys2Proof.Laws.WordCount.and (d a b : Sys2Proof.Reg) :
    Sys2Proof.Laws.WordCount.Statement (.and d a b) := rfl
theorem Sys2Proof.Laws.WordCount.or (d a b : Sys2Proof.Reg) :
    Sys2Proof.Laws.WordCount.Statement (.or d a b) := rfl
theorem Sys2Proof.Laws.WordCount.xor (d a b : Sys2Proof.Reg) :
    Sys2Proof.Laws.WordCount.Statement (.xor d a b) := rfl
theorem Sys2Proof.Laws.WordCount.shiftl (d a b : Sys2Proof.Reg) :
    Sys2Proof.Laws.WordCount.Statement (.shiftl d a b) := rfl
theorem Sys2Proof.Laws.WordCount.shiftr (d a b : Sys2Proof.Reg) :
    Sys2Proof.Laws.WordCount.Statement (.shiftr d a b) := rfl
theorem Sys2Proof.Laws.WordCount.trap (d a b : Sys2Proof.Reg) :
    Sys2Proof.Laws.WordCount.Statement (.trap d a b) := rfl
theorem Sys2Proof.Laws.WordCount.lea (d : Sys2Proof.Reg) (disp : Sys2Proof.Word) (a : Sys2Proof.Reg) :
    Sys2Proof.Laws.WordCount.Statement (.lea d disp a) := rfl
theorem Sys2Proof.Laws.WordCount.load (d : Sys2Proof.Reg) (disp : Sys2Proof.Word) (a : Sys2Proof.Reg) :
    Sys2Proof.Laws.WordCount.Statement (.load d disp a) := rfl
theorem Sys2Proof.Laws.WordCount.store (d : Sys2Proof.Reg) (disp : Sys2Proof.Word) (a : Sys2Proof.Reg) :
    Sys2Proof.Laws.WordCount.Statement (.store d disp a) := rfl
theorem Sys2Proof.Laws.WordCount.jump (d : Sys2Proof.Reg) (disp : Sys2Proof.Word) (a : Sys2Proof.Reg) :
    Sys2Proof.Laws.WordCount.Statement (.jump d disp a) := rfl
theorem Sys2Proof.Laws.WordCount.jumpf (d : Sys2Proof.Reg) (disp : Sys2Proof.Word) (a : Sys2Proof.Reg) :
    Sys2Proof.Laws.WordCount.Statement (.jumpf d disp a) := rfl
theorem Sys2Proof.Laws.WordCount.jumpt (d : Sys2Proof.Reg) (disp : Sys2Proof.Word) (a : Sys2Proof.Reg) :
    Sys2Proof.Laws.WordCount.Statement (.jumpt d disp a) := rfl
theorem Sys2Proof.Laws.WordCount.jal (d : Sys2Proof.Reg) (disp : Sys2Proof.Word) (a : Sys2Proof.Reg) :
    Sys2Proof.Laws.WordCount.Statement (.jal d disp a) := rfl
theorem Sys2Proof.Laws.WordCount.illegalXX (w1 : Sys2Proof.Word) :
    Sys2Proof.Laws.WordCount.Statement (.illegalXX w1) := rfl
theorem Sys2Proof.Laws.WordCount.illegalRxB7 (w1 : Sys2Proof.Word) :
    Sys2Proof.Laws.WordCount.Statement (.illegalRxB7 w1) := rfl
theorem Sys2Proof.Laws.WordCount.illegalRxB8to15 (w1 : Sys2Proof.Word) :
    Sys2Proof.Laws.WordCount.Statement (.illegalRxB8to15 w1) := rfl
end

