-- ==== Sys2Proof/Tests/Slice0.lean ====
section
/-! SUPPORT. The model's own tests. Expected results come from the spec: the words and vectors of
95_test_vectors.md (section named at each group) and the encodings of R61, R68, R69. The witnesses at
the end show for each statement of the obligations a concrete input that meets its hypotheses. -/

namespace Sys2Proof.Tests
open Sys2Proof Sys2Proof.Machine

/-! ## WellFormed: each check refuses an ill-formed term -/

theorem test_wf_refuses_xx_with_other_op :
    (Instr.illegalXX 0xD000#16).wf = false ∧ (Instr.illegalXX 0xF007#16).wf = false := by decide
theorem test_wf_refuses_rxB7_with_other_field :
    (Instr.illegalRxB7 0xF006#16).wf = false ∧ (Instr.illegalRxB7 0xE007#16).wf = false := by decide
theorem test_wf_refuses_rxB8to15_with_other_field :
    (Instr.illegalRxB8to15 0xF007#16).wf = false ∧ (Instr.illegalRxB8to15 0xE008#16).wf = false := by
  decide

/-! ## Decoding (section 2.1): every constructor, from a word written out from its encoding -/

theorem test_decode_arith :
    decode [0x0481#16] = .ok (.add 4 8 1) [] ∧ decode [0x1113#16] = .ok (.sub 1 1 3) [] ∧
    decode [0x2123#16] = .ok (.mul 1 2 3) [] ∧ decode [0x3412#16] = .ok (.div 4 1 2) [] := by decide
theorem test_decode_compare :
    decode [0x4512#16] = .ok (.cmplt 5 1 2) [] ∧ decode [0x5320#16] = .ok (.cmpeq 3 2 0) [] ∧
    decode [0x6410#16] = .ok (.cmpgt 4 1 0) [] := by decide
theorem test_decode_logic_shift :
    decode [0x7123#16] = .ok (.inv 1 2 3) [] ∧ decode [0x8123#16] = .ok (.and 1 2 3) [] ∧
    decode [0x9123#16] = .ok (.or 1 2 3) [] ∧ decode [0xA123#16] = .ok (.xor 1 2 3) [] ∧
    decode [0xB123#16] = .ok (.shiftl 1 2 3) [] ∧ decode [0xC123#16] = .ok (.shiftr 1 2 3) [] := by
  decide
theorem test_decode_trap :
    decode [0xD000#16] = .ok (.trap 0 0 0) [] ∧ decode [0xDFFF#16] = .ok (.trap 15 15 15) [] := by
  decide
theorem test_decode_rx_memory :
    decode [0xF100#16, 0x0005#16] = .ok (.lea 1 0x0005#16 0) [] ∧
    decode [0xFFF0#16, 0xFFFF#16] = .ok (.lea 15 0xFFFF#16 15) [] ∧
    decode [0xF611#16, 0x0019#16] = .ok (.load 6 0x0019#16 1) [] ∧
    decode [0xF202#16, 0x0010#16] = .ok (.store 2 0x0010#16 0) [] := by decide
theorem test_decode_jumps :
    decode [0xF7D3#16, 0x0000#16] = .ok (.jump 7 0x0000#16 13) [] ∧
    decode [0xF404#16, 0x000D#16] = .ok (.jumpf 4 0x000D#16 0) [] ∧
    decode [0xF305#16, 0x0010#16] = .ok (.jumpt 3 0x0010#16 0) [] ∧
    decode [0xFD06#16, 0x0007#16] = .ok (.jal 13 0x0007#16 0) [] := by decide
theorem test_decode_undefined :
    decode [0xE000#16] = .ok (.illegalXX 0xE000#16) [] ∧
    decode [0xF007#16] = .ok (.illegalRxB7 0xF007#16) [] ∧
    decode [0xF128#16] = .ok (.illegalRxB8to15 0xF128#16) [] ∧
    decode [0xFFFF#16] = .ok (.illegalRxB8to15 0xFFFF#16) [] := by decide
theorem test_decode_rejects_by_name :
    decode [] = .rejected .noFirstWord ∧ decode [0xF100#16] = .rejected .noDisplacement := by decide
theorem test_decode_table_word :
    decodeTableWord 16 0x0481 = some (.add 4 8 1) ∧
    decodeTableWord 16 0xF100 = some (.lea 1 0x0000#16 0) ∧
    decodeTableWord 32 0x0005F100 = some (.lea 1 0x0005#16 0) := by decide

/-! ## Assembly (R76, R77, R79) -/

theorem test_assemble :
    assemble (.add 4 8 1) = [0x0481#16] ∧ assemble (.jump 7 0x0006#16 0) = [0xF003#16, 0x0006#16] := by
  decide
theorem test_disassemble :
    disassemble (.add 4 8 1) = some "add R4,R8,R1" ∧
    disassemble (.load 6 0x0019#16 1) = some "load R6,25[R1]" := by decide

/-! ## One step (sections 2.2 to 2.10). `at0100` places an instruction at 0x0100. -/

/-- A running state at address `pc` with the given registers and memory words, all else as at reset. -/
def stateAt (pc : Word) (regs : List (Reg × Word)) (words : List (Word × Word)) : State :=
  words.foldl (fun s c => s.memWrite c.1 c.2)
    (regs.foldl (fun s c => s.setReg c.1 c.2) (State.reset.setPc pc))

/-- The two words at 0x0100 and 0x0101, `pc` there, and the given registers. -/
def at0100 (w1 w2 : Word) (regs : List (Reg × Word)) : State :=
  stateAt 0x0100#16 regs [(0x0100#16, w1), (0x0101#16, w2)]

/-- What `f` sees of the next state. -/
def seen {α : Type} (f : State → α) (o : Result) : Option α :=
  match o with
  | .next t => some (f t)
  | .fault _ => none
  | .refused _ => none

/-- The fault of an outcome. -/
def faultOf (o : Result) : Option Fault :=
  match o with
  | .fault f => some f
  | .next _ => none
  | .refused _ => none

theorem test_add_wraps :
    seen (fun t => (t.readReg 1, t.pc)) (step (at0100 0x0123#16 0#16 [(2, 0xFFFF#16), (3, 0x0001#16)])) =
      some (0x0000#16, 0x0101#16) := by decide
theorem test_add_source_is_destination :
    seen (fun t => t.readReg 1) (step (at0100 0x0111#16 0#16 [(1, 0x0015#16)])) = some 0x002A#16 := by
  decide
theorem test_sub_borrows :
    seen (fun t => t.readReg 1) (step (at0100 0x1123#16 0#16 [(2, 0x0001#16), (3, 0x0002#16)])) =
      some 0xFFFF#16 := by decide
theorem test_mul_low_half :
    seen (fun t => t.readReg 1) (step (at0100 0x2123#16 0#16 [(2, 0x012C#16), (3, 0x012C#16)])) =
      some 0x5F90#16 := by decide
theorem test_div_floor_writes_remainder :
    seen (fun t => (t.readReg 1, t.readReg 2, t.readReg 3))
      (step (at0100 0x3123#16 0#16 [(2, 0xFFF9#16), (3, 0x0002#16)])) =
      some (0xFFFC#16, 0x0001#16, 0x0002#16) := by decide
theorem test_div_quotient_over_divisor :
    seen (fun t => (t.readReg 3, t.readReg 2))
      (step (at0100 0x3323#16 0#16 [(2, 0x0007#16), (3, 0x0002#16)])) =
      some (0x0003#16, 0x0001#16) := by decide
theorem test_div_faults :
    faultOf (step (at0100 0x3123#16 0#16 [(2, 0x0007#16)])) = some (.divideByZero 0x0100#16) ∧
    faultOf (step (at0100 0x3223#16 0#16 [])) = some (.unspecifiedDivOverlap 0x0100#16) := by decide
theorem test_divmod_conventions :
    divMod .signedFloor 0x0007#16 0xFFFE#16 = (0xFFFC#16, 0xFFFF#16) ∧
    divMod .signedTrunc 0x0007#16 0xFFFE#16 = (0xFFFD#16, 0x0001#16) ∧
    divMod .unsigned 0x0007#16 0xFFFE#16 = (0x0000#16, 0x0007#16) ∧
    divMod .signedFloor 0x7FFF#16 0x8000#16 = (0xFFFF#16, 0xFFFF#16) ∧
    divMod .signedTrunc 0xFFF9#16 0x0002#16 = (0xFFFD#16, 0xFFFF#16) ∧
    divMod .unsigned 0x8000#16 0x0002#16 = (0x4000#16, 0x0000#16) := by decide
theorem test_cmplt_signed :
    seen (fun t => t.readReg 1) (step (at0100 0x4123#16 0#16 [(2, 0x8000#16), (3, 0x7FFF#16)])) =
      some 0x0001#16 := by decide
theorem test_cmplt_equal :
    seen (fun t => t.readReg 1) (step (at0100 0x4123#16 0#16 [(2, 0x0005#16), (3, 0x0005#16)])) =
      some 0x0000#16 := by decide
theorem test_cmpeq :
    seen (fun t => t.readReg 1) (step (at0100 0x5123#16 0#16 [(2, 0x8000#16), (3, 0x8000#16)])) =
      some 0x0001#16 := by decide
theorem test_cmpgt_signed :
    seen (fun t => t.readReg 1) (step (at0100 0x6123#16 0#16 [(2, 0x0001#16), (3, 0xFFFF#16)])) =
      some 0x0001#16 := by decide
theorem test_unsigned_readings :
    lessThan false 0x8000#16 0x7FFF#16 = false ∧ greaterThan false 0xFFFF#16 0x0001#16 = true := by
  decide
theorem test_inv_does_nothing :
    seen (fun t => (t.readReg 1, t.pc)) (step (at0100 0x7123#16 0#16 [(1, 0x1111#16), (2, 0x00FF#16)])) =
      some (0x1111#16, 0x0101#16) := by decide
theorem test_and_does_nothing :
    seen (fun t => (t.readReg 1, t.pc)) (step (at0100 0x8123#16 0#16 [(1, 0x1111#16)])) =
      some (0x1111#16, 0x0101#16) := by decide
theorem test_or_does_nothing :
    seen (fun t => (t.readReg 1, t.pc)) (step (at0100 0x9123#16 0#16 [(1, 0x1111#16)])) =
      some (0x1111#16, 0x0101#16) := by decide
theorem test_xor_does_nothing :
    seen (fun t => (t.readReg 1, t.pc)) (step (at0100 0xA123#16 0#16 [(1, 0x1111#16)])) =
      some (0x1111#16, 0x0101#16) := by decide
theorem test_shiftl_value :
    seen (fun t => t.readReg 1)
      (step (at0100 0xB123#16 0#16 [(1, 0x1111#16), (2, 0x2222#16), (3, 0x3333#16)])) =
      some (Config.shiftlValue 0x1111#16 0x2222#16 0x3333#16) := by rfl
theorem test_shiftr_value :
    seen (fun t => t.readReg 1)
      (step (at0100 0xC123#16 0#16 [(1, 0x1111#16), (2, 0x2222#16), (3, 0x3333#16)])) =
      some (Config.shiftrValue 0x1111#16 0x2222#16 0x3333#16) := by rfl
theorem test_trap :
    seen (fun t => (t.pc, t.status)) (step (at0100 0xD123#16 0#16 [])) =
      some (Config.interruptHandler, .ended) := by rfl
theorem test_lea_wraps :
    seen (fun t => (t.readReg 1, t.pc)) (step (at0100 0xF110#16 0xFFFF#16 [(1, 0x0005#16)])) =
      some (0x0004#16, 0x0102#16) := by decide
theorem test_load_own_first_word :
    seen (fun t => t.readReg 1) (step (at0100 0xF101#16 0x0100#16 [])) = some 0xF101#16 := by decide
theorem test_load_index_is_destination :
    seen (fun t => t.readReg 1)
      (step ((at0100 0xF111#16 0x0000#16 [(1, 0x0200#16)]).memWrite 0x0200#16 0xBEEF#16)) =
      some 0xBEEF#16 := by decide
theorem test_store_address_wraps :
    seen (fun t => (t.memRead 0x0000#16, t.memRead 0x0001#16))
      (step (at0100 0xF342#16 0x0001#16 [(3, 0xABCD#16), (4, 0xFFFF#16)])) =
      some (0xABCD#16, 0x0000#16) := by decide
theorem test_store_own_displacement :
    seen (fun t => (t.memRead 0x0101#16, t.pc)) (step (at0100 0xF202#16 0x0101#16 [(2, 0x7777#16)])) =
      some (0x7777#16, 0x0102#16) := by decide
theorem test_jump_ignores_d :
    seen (fun t => t.pc) (step (at0100 0xF9D3#16 0x0000#16 [(13, 0x0004#16)])) = some 0x0004#16 := by
  decide
theorem test_jumpf_taken :
    seen (fun t => t.pc) (step (at0100 0xF404#16 0x000D#16 [])) = some 0x000D#16 := by decide
theorem test_jumpf_falls_through_on_high_bit :
    seen (fun t => t.pc) (step (at0100 0xF404#16 0x000D#16 [(4, 0x8000#16)])) = some 0x0102#16 := by
  decide
theorem test_jumpt_taken_on_any_nonzero :
    seen (fun t => t.pc) (step (at0100 0xF305#16 0x0010#16 [(3, 0xFF00#16)])) = some 0x0010#16 := by
  decide
theorem test_jumpt_falls_through :
    seen (fun t => t.pc) (step (at0100 0xF305#16 0x0010#16 [])) = some 0x0102#16 := by decide
theorem test_jal_link_is_index :
    seen (fun t => (t.readReg 13, t.pc)) (step (at0100 0xFDD6#16 0x0000#16 [(13, 0x0400#16)])) =
      some (0x0102#16, 0x0400#16) := by decide
theorem test_jal_link_wraps :
    seen (fun t => (t.readReg 5, t.pc))
      (step (stateAt 0xFFFE#16 [(6, 0x0010#16)] [(0xFFFE#16, 0xF566#16), (0xFFFF#16, 0x0002#16)])) =
      some (0x0000#16, 0x0012#16) := by decide
theorem test_illegal_words :
    faultOf (step (at0100 0xE123#16 0#16 [])) = some (.illegalInstruction 0x0100#16 0xE123#16) ∧
    faultOf (step (at0100 0xF007#16 0#16 [])) = some (.illegalInstruction 0x0100#16 0xF007#16) ∧
    faultOf (step (at0100 0xFFFF#16 0#16 [])) = some (.illegalInstruction 0x0100#16 0xFFFF#16) := by
  decide
theorem test_top_of_memory_one_word :
    seen (fun t => (t.readReg 1, t.pc))
      (step (stateAt 0xFFFF#16 [(2, 0x0001#16), (3, 0x0002#16)] [(0xFFFF#16, 0x0123#16)])) =
      some (0x0003#16, 0x0000#16) := by decide
theorem test_top_of_memory_two_words :
    seen (fun t => (t.readReg 1, t.pc))
      (step (stateAt 0xFFFF#16 [(2, 0x0001#16)] [(0xFFFF#16, 0xF120#16), (0x0000#16, 0x0009#16)])) =
      some (0x000A#16, 0x0001#16) := by decide

/-- Section 2.9, both values of `R0_HARDWIRED_ZERO`: `add R0,R1,R1` with R1 = 7. -/
theorem test_write_to_R0 :
    seen (fun t => t.readReg 0) (exec (.add 0 1 1) (stateAt 0#16 [(1, 0x0007#16)] [])) =
      some (if Config.r0HardwiredZero = true then 0x0000#16 else 0x000E#16) := by
  cases h : Config.r0HardwiredZero <;>
    simp [seen, exec, execAdd, rrrWrite, readReg_eq, writeReg_eq, h, stateAt, State.reset, State.launch,
      Config.initialRegs]

/-- The first step after reset runs a placed instruction, and nothing placed is `add R0,R0,R0` (section
3: all-zero memory). -/
theorem test_first_step_after_reset :
    seen (fun t => (t.readReg 1, t.pc)) (step (State.reset.withFetchWord 32 0x0005F100)) =
      some (0x0005#16, 0x0002#16) ∧
    State.reset.fetch = .add 0 0 0 := by decide

/-- Memory in canonical form: writing what an unlisted address reads as removes the entry. -/
theorem test_memory_canonical :
    Memory.write (Memory.write (Memory.write [] 5 0x0001#16) 3 0x0002#16) 5 0x0000#16 =
      [(3, 0x0002#16)] := by decide

/-! ## Witnesses: `witness_X` meets the hypotheses of `Obligations.X`, one conjunct for each clause, at the
ends of the clause's range. A statement without hypotheses has none. -/

theorem witness_DecodeOfEncode :
    (Instr.add 0 15 0).wf = true ∧ (Instr.jal 15 0xFFFF#16 15).wf = true ∧
    (Instr.illegalXX 0xEFFF#16).wf = true ∧ (Instr.illegalRxB7 0xF007#16).wf = true ∧
    (Instr.illegalRxB8to15 0xF008#16).wf = true := by decide
theorem witness_EncodeOfDecode :
    decode [0xF7D3#16, 0xFFFF#16, 0x0000#16] = .ok (.jump 7 0xFFFF#16 13) [0x0000#16] := by decide
theorem witness_LengthFromOpField :
    (0x0000#16 : Word).toNat / 4096 ≤ 13 ∧ (0xDFFF#16 : Word).toNat / 4096 ≤ 13 ∧
    (0xE000#16 : Word).toNat / 4096 = 14 ∧ (0xF006#16 : Word).toNat / 4096 = 15 ∧
    isIllegal (decodeWord 0xF006#16 0#16) = false := by decide
theorem witness_OpcodeMapMnemonics :
    (0xDFFF#16 : Word).toNat / 4096 ≤ 13 ∧ (0xFFF6#16 : Word).toNat / 4096 = 15 ∧
    (0xFFF6#16 : Word).toNat % 16 ≤ 6 := by decide
theorem witness_PrintedFormLosesOnlyJumpD :
    Instr.jump 7 0x0006#16 0 = .jump 7 0x0006#16 0 ∧ (7 : Reg) ≠ 0 ∧
    assemble (.jump 7 0x0006#16 0) ≠ encode (.jump 7 0x0006#16 0) ∧
    isIllegal (.jump 7 0x0006#16 0) = false ∧
    disassemble (.jump 7 0x0006#16 0) = disassemble (.jump 15 0x0006#16 0) := by decide

/-- `add R1,R2,R3` at 0x0100. -/
def addState : State := at0100 0x0123#16 0#16 [(2, 0x0001#16), (3, 0x0002#16)]
/-- `trap R1,R2,R3` at 0x0100. -/
def trapState : State := at0100 0xD123#16 0#16 []
/-- `div R1,R2,R3` at 0x0100 with a zero divisor. -/
def divZeroState : State := at0100 0x3123#16 0#16 [(2, 0x0007#16)]
/-- `div R2,R2,R3` at 0x0100. -/
def divOverlapState : State := at0100 0x3223#16 0#16 []
/-- An undefined first word at 0x0100. -/
def undefinedState (w1 : Word) : State := at0100 w1 0#16 []
/-- `store R2,0x0102[R0]` at 0x0100: it writes `add R2,R1,R1` where the next fetch reads. -/
def storeNextState : State := at0100 0xF202#16 0x0102#16 [(2, 0x0211#16)]
/-- `store R2,0x0103[R0]` at 0x0100, with the first word of a `lea` at 0x0102: it writes the displacement
the next fetch reads. -/
def storeDispState : State := (at0100 0xF202#16 0x0103#16 [(2, 0x0211#16)]).memWrite 0x0102#16 0xF100#16

theorem witness_StepRunsDecodedInstruction :
    addState.status = .running ∧
    decode [addState.memRead addState.pc, addState.memRead (addState.pc + 1)] =
      .ok (.add 1 2 3) [0x0000#16] := by decide
theorem witness_SequentialAdvance :
    (∃ t, step addState = .next t) ∧ assignsPc addState.fetch = false := ⟨⟨_, rfl⟩, by decide⟩
theorem witness_FetchWrapsAtTop :
    (∃ s : State, s.pc = 0xFFFF#16 ∧ needsDisplacement (s.memRead 0xFFFF#16) = true ∧
      (∃ t, step s = .next t) ∧ assignsPc s.fetch = false ∧ s.fetch.words = 2) ∧
    (∃ s : State, s.pc = 0xFFFF#16 ∧ (∃ t, step s = .next t) ∧ assignsPc s.fetch = false ∧
      s.fetch.words = 1) :=
  ⟨⟨stateAt 0xFFFF#16 [] [(0xFFFF#16, 0xF120#16), (0x0000#16, 0x0009#16)], rfl, by decide, ⟨_, rfl⟩,
      by decide, by decide⟩,
   ⟨stateAt 0xFFFF#16 [] [(0xFFFF#16, 0x0123#16)], rfl, ⟨_, rfl⟩, by decide, by decide⟩⟩
theorem witness_RegisterUseTable :
    (∃ t, exec (.add 1 2 3) addState = .next t) ∧
    AgreeOn (regsRead (.add 1 2 3)) addState (addState.setReg 1 0x1111#16) ∧
    AgreeOn (regsRead (.div 1 2 3)) divZeroState (divZeroState.setReg 4 0x1111#16) ∧
    exec (.div 1 2 3) divZeroState = .fault (.divideByZero 0x0100#16) :=
  ⟨⟨_, rfl⟩, ⟨rfl, rfl, fun _ => rfl, by decide⟩, ⟨rfl, rfl, fun _ => rfl, by decide⟩, rfl⟩
theorem witness_OnlyStoreChangesMemory :
    (∃ t, step addState = .next t) ∧ ∀ d disp a, addState.fetch ≠ .store d disp a := by
  have h : addState.fetch = .add 1 2 3 := by decide
  exact ⟨⟨_, rfl⟩, by simp [h]⟩
theorem witness_RunningStepCompletesOrFaultsAsListed :
    addState.status = .running ∧ (∃ t, step addState = .next t) ∧
    step divZeroState = .fault (.divideByZero 0x0100#16) ∧
    step divOverlapState = .fault (.unspecifiedDivOverlap 0x0100#16) ∧
    step (undefinedState 0xE000#16) = .fault (.illegalInstruction 0x0100#16 0xE000#16) :=
  ⟨rfl, ⟨_, rfl⟩, rfl, rfl, rfl⟩
theorem witness_FaultsArePreciseAndTerminal :
    step divZeroState = .fault (.divideByZero 0x0100#16) := rfl
theorem witness_RunStatusChanges :
    (∃ t, step trapState = .next t) ∧ trapState.fetch = .trap 1 2 3 ∧
    (∃ t, step addState = .next t) ∧ addState.fetch = .add 1 2 3 ∧
    step divZeroState = .fault (.divideByZero 0x0100#16) ∧
    (addState.setStatus .ended).status ≠ .running ∧
    (addState.setStatus (.faulted (.divideByZero 0#16))).status ≠ .running :=
  ⟨⟨_, rfl⟩, by decide, ⟨_, rfl⟩, by decide, rfl, by decide, by decide⟩
theorem witness_RunEndsExactlyAtTrap :
    (∃ t, step trapState = .next t ∧ t.status = .ended) ∧
    (∃ t, step addState = .next t ∧ t.status = .running) := ⟨⟨_, rfl, rfl⟩, ⟨_, rfl, rfl⟩⟩
theorem witness_StepKeepsInvariant :
    addState.Inv ∧ storeNextState.Inv ∧ (∃ t, step addState = .next t) ∧
    (∃ t, step storeNextState = .next t) :=
  ⟨⟨by decide, fun _ => rfl⟩, ⟨by decide, fun _ => rfl⟩, ⟨_, rfl⟩, ⟨_, rfl⟩⟩
theorem witness_LaunchStartsAtZero :
    decode [Memory.read [(0, 0xF100#16), (1, 0x0005#16)] 0, Memory.read [(0, 0xF100#16), (1, 0x0005#16)] 1]
      = .ok (.lea 1 0x0005#16 0) [] := by decide
theorem witness_PlacedWordRunsNext :
    decodeTableWord 16 0xDFFF = some (.trap 15 15 15) ∧
    (0x0102#16 : Word) ≠ addState.pc ∧ (0x0102#16 : Word) ≠ addState.pc + 1 := by decide
theorem witness_EqualReadsEqualMemories :
    Memory.wf [(0, 0x0001#16), (65535, 0xFFFF#16)] ∧
    ∀ a < 65536, Memory.read [(0, 0x0001#16), (65535, 0xFFFF#16)] a =
      Memory.read [(0, 0x0001#16), (65535, 0xFFFF#16)] a := ⟨by decide, fun _ _ => rfl⟩
theorem witness_DivByRule :
    (2 : Reg) = 2 ∧ ((1 : Reg) ≠ 2 ∧ divZeroState.readReg 3 = 0x0000#16) ∧
    ((1 : Reg) ≠ 2 ∧ addState.readReg 3 ≠ 0x0000#16) := by decide
theorem witness_DivModByRule :
    (0xFFFF#16 : Word) ≠ 0x0000#16 ∧ (0x7FFF#16 : Word) ≠ 0x0000#16 ∧
    (0x7FFF#16 : Word).toNat ≤ 0x7FFF ∧ (0x0001#16 : Word) ≠ 0x0000#16 := by decide
theorem witness_ExactlyOneComparisonHolds : (1 : Reg) ≠ 0 ∧ (15 : Reg) ≠ 0 := by decide
theorem witness_UndefinedWordsFault :
    (undefinedState 0xE000#16).status = .running ∧
    (undefinedState 0xE000#16).memRead 0x0100#16 = 0xE000#16 ∧
    (0xE000#16 : Word).toNat / 4096 = 14 ∧ (0xEFFF#16 : Word).toNat / 4096 = 14 ∧
    ((0xF007#16 : Word).toNat / 4096 = 15 ∧ 7 ≤ (0xF007#16 : Word).toNat % 16) ∧
    ((0xFFFF#16 : Word).toNat / 4096 = 15 ∧ 7 ≤ (0xFFFF#16 : Word).toNat % 16) := by decide
theorem witness_LoadAfterStore :
    ∃ t u, exec (.store 2 0x0102#16 0) storeNextState = .next t ∧
      exec (.load 3 0x0102#16 0) t = .next u ∧
      t.effectiveAddress 0x0102#16 0 = storeNextState.effectiveAddress 0x0102#16 0 ∧
      (∃ v, exec (.load 3 0x0101#16 0) t = .next v) ∧
      t.effectiveAddress 0x0101#16 0 ≠ storeNextState.effectiveAddress 0x0102#16 0 :=
  ⟨_, _, rfl, rfl, by decide, ⟨_, rfl⟩, by decide⟩
theorem witness_StoreSeenByNextFetch :
    (∃ t, storeNextState.status = .running ∧ storeNextState.fetch = .store 2 0x0102#16 0 ∧
      step storeNextState = .next t ∧ storeNextState.effectiveAddress 0x0102#16 0 = t.pc ∧
      decode [storeNextState.readReg 2, storeNextState.memRead (t.pc + 1)] =
        .ok (.add 2 1 1) [0x0000#16]) ∧
    (∃ t, storeDispState.status = .running ∧ storeDispState.fetch = .store 2 0x0103#16 0 ∧
      step storeDispState = .next t ∧ storeDispState.effectiveAddress 0x0103#16 0 = t.pc + 1 ∧
      decode [storeDispState.memRead t.pc, storeDispState.readReg 2] =
        .ok (.lea 1 0x0211#16 0) []) :=
  ⟨⟨_, rfl, by decide, rfl, by decide, by decide⟩, ⟨_, rfl, by decide, rfl, by decide, by decide⟩⟩
theorem witness_JumpThroughLinkReturns :
    (13 : Reg) ≠ 0 ∧ ∃ t, exec (.jal 13 0x0007#16 0) addState = .next t ∧
      t.readReg 13 = t.readReg 13 := ⟨by decide, _, rfl, rfl⟩

end Sys2Proof.Tests
end

section
/-! PROOF. What the fetch reads and where a completed step leaves `pc` (R26 to R28), and the statements
about the top of memory (R28) and the launch (R36). -/

namespace Sys2Proof.Machine

/-! ## The fetch -/

theorem fetch_of_needsDisplacement {s : State} (h : needsDisplacement (s.memRead s.pc) = true) :
    s.fetch = decodeWord (s.memRead s.pc) (s.memRead (s.pc + 1)) := by
  rw [State.fetch, if_pos h]

/-- What decodes from the two words at `pc` is what the fetch gives (R27, R46). -/
theorem fetch_of_decode {s : State} {i : Instr} {rest : List Word}
    (h : decode [s.memRead s.pc, s.memRead (s.pc + 1)] = .ok i rest) : s.fetch = i := by
  rw [decode_fetch] at h
  exact (DecodeResult.ok.inj h).1

theorem step_of_decode {s : State} {i : Instr} {rest : List Word} (hs : s.status = .running)
    (h : decode [s.memRead s.pc, s.memRead (s.pc + 1)] = .ok i rest) : step s = exec i s := by
  rw [step_running hs, fetch_of_decode h]

/-! ## Sequential advance -/

theorem rrrWrite_pc {f : Word → Word → Word} {d a b : Reg} {s t : State}
    (h : rrrWrite f d a b s = .next t) : t.pc = s.pc + 1 := by
  obtain ⟨u, hu, -, -, -, hpc, -⟩ := rrrWrite_next f d a b s
  obtain rfl : u = t := Host.Outcome.next.inj (hu.symm.trans h)
  exact hpc

theorem shiftBy_pc {f : Config.ShiftFn} {d a b : Reg} {s t : State}
    (h : shiftBy (some f) d a b s = .next t) : t.pc = s.pc + 1 := by
  obtain ⟨u, hu, -, -, -, hpc, -⟩ := shiftBy_some f d a b s
  obtain rfl : u = t := Host.Outcome.next.inj (hu.symm.trans h)
  exact hpc

theorem noOperation_pc {s t : State} (h : noOperation s = .next t) : t.pc = s.pc + 1 := by
  obtain rfl := Host.Outcome.next.inj h
  rfl

/-- When `div` completes, and the state it leaves (R103, R108). -/
theorem execDiv_next_iff {d a b : Reg} {s t : State} : execDiv d a b s = .next t ↔
    d ≠ a ∧ s.readReg b ≠ 0x0000#16 ∧
      t = ((s.advance 1).writeReg d (divMod Config.divConvention (s.readReg a) (s.readReg b)).1).writeReg a
        (divMod Config.divConvention (s.readReg a) (s.readReg b)).2 := by
  by_cases hda : d = a
  · simp [execDiv, hda]
  · by_cases hb : s.readReg b = 0x0000#16
    · simp [execDiv, hda, hb]
    · simp [execDiv, hda, hb, eq_comm]

/-- A completed instruction that does not assign `pc` leaves it past its own words (R26, R27, R104, R144). -/
theorem exec_pc {i : Instr} {s t : State} (h : exec i s = .next t) (hi : assignsPc i = false) :
    t.pc = s.pc + BitVec.ofNat 16 i.words := by
  cases i with
  | add d a b | sub d a b | mul d a b | cmplt d a b | cmpeq d a b | cmpgt d a b =>
    dsimp only [exec] at h
    exact rrrWrite_pc h
  | div d a b =>
    obtain ⟨-, -, rfl⟩ := execDiv_next_iff.mp h
    simp [Instr.words]
  | inv d a b | and d a b | or d a b | xor d a b => exact noOperation_pc h
  | shiftl d a b | shiftr d a b => exact shiftBy_pc h
  | lea d disp a | load d disp a =>
    obtain rfl := Host.Outcome.next.inj h
    exact writeReg_pc (s.advance 2) d _
  | store d disp a =>
    obtain rfl := Host.Outcome.next.inj h
    rfl
  | trap d a b | jump d disp a | jumpf d disp a | jumpt d disp a | jal d disp a => cases hi
  | illegalXX w1 | illegalRxB7 w1 | illegalRxB8to15 w1 => cases h

theorem step_pc {s t : State} (h : step s = .next t) (hi : assignsPc s.fetch = false) :
    t.pc = s.pc + BitVec.ofNat 16 s.fetch.words :=
  exec_pc (exec_of_step_next h) hi

/-! ## The launch state -/

@[simp] theorem launch_pc (regs : Vector Word 16) (mem : Memory) :
    (State.launch regs mem).pc = 0x0000#16 := rfl

@[simp] theorem launch_status (regs : Vector Word 16) (mem : Memory) :
    (State.launch regs mem).status = .running := rfl

@[simp] theorem memRead_launch (regs : Vector Word 16) (mem : Memory) (addr : Word) :
    (State.launch regs mem).memRead addr = mem.read addr.toNat := rfl

/-! ## The statements -/

/-- Settles O11: `pc +16 1` is 0x0000 at 0xFFFF, and `step_pc` gives the advance. -/
theorem fetchWrapsAtTop : Obligations.FetchWrapsAtTop := by
  intro s hpc
  refine ⟨fun hdisp => ?_, fun t hstep hseq => ?_⟩
  · rw [← hpc] at hdisp
    rw [fetch_of_needsDisplacement hdisp, hpc]
    rfl
  · have ht := step_pc hstep hseq
    constructor <;> intro hwords <;> rw [ht, hpc, hwords] <;> rfl

/-- Settles O20: the launch state is running at 0x0000, so `step_of_decode` applies to its first two words. -/
theorem launchStartsAtZero : Obligations.LaunchStartsAtZero := by
  intro regs mem
  refine ⟨launch_pc regs mem, launch_status regs mem, memRead_launch regs mem, fun i rest h => ?_⟩
  exact step_of_decode (launch_status regs mem) (by simpa using h)

end Sys2Proof.Machine
end

section
/-! PROOF. The length that the op field gives (R63), the words of a row of the RX table (R69), and the
statements about the length and about the d field of `jump` (R66). -/

namespace Sys2Proof.Machine

/-! ## What the op field decides -/

theorem needsDisplacement_of_op_ne {w1 : Word} (h : opField w1 ≠ 15) : needsDisplacement w1 = false := by
  simp [needsDisplacement, h]

theorem needsDisplacement_of_row {w1 : Word} (h : opField w1 = 15) (hb : bCode w1 ≤ 6) :
    needsDisplacement w1 = true := by
  simp [needsDisplacement, h, hb]

theorem needsDisplacement_of_no_row {w1 : Word} (hb : ¬ bCode w1 ≤ 6) : needsDisplacement w1 = false := by
  simp [needsDisplacement, hb]

/-- A first word with another op field than 15 decodes alone. -/
theorem decode_of_op_ne {w1 : Word} (h : opField w1 ≠ 15) (rest : List Word) :
    decode (w1 :: rest) = .ok (decodeWord w1 0x0000#16) rest :=
  decode_one (needsDisplacement_of_op_ne h) rest

/-- R68: every op field 0 to 13 has a row, and its form is one word. -/
theorem decodeWord_of_op_le {w1 : Word} (h : opField w1 ≤ 13) (disp : Word) :
    (decodeWord w1 disp).words = 1 ∧ isIllegal (decodeWord w1 disp) = false := by
  unfold decodeWord
  generalize opField w1 = op at h
  interval_cases op <;> exact ⟨rfl, rfl⟩

theorem decodeWord_xx {w1 : Word} (h : opField w1 = 14) (disp : Word) :
    decodeWord w1 disp = .illegalXX w1 := by
  simp [decodeWord, h]

theorem decodeWord_rx {w1 : Word} (h : opField w1 = 15) (disp : Word) :
    decodeWord w1 disp = decodeRx w1 disp := by
  simp [decodeWord, h]

/-! ## What the b field decides under op 15 -/

/-- R69: every b field 0 to 6 has a row, and its form is two words. -/
theorem decodeRx_of_row {w1 : Word} (hb : bCode w1 ≤ 6) (disp : Word) :
    (decodeRx w1 disp).words = 2 ∧ isIllegal (decodeRx w1 disp) = false := by
  unfold decodeRx
  generalize bCode w1 = b at hb
  interval_cases b <;> exact ⟨rfl, rfl⟩

/-- R71: no b field from 7 on has a row. -/
theorem decodeRx_of_no_row {w1 : Word} (hb : ¬ bCode w1 ≤ 6) (disp : Word) :
    isIllegal (decodeRx w1 disp) = true := by
  unfold decodeRx
  split
  case h_8 | h_9 => rfl
  all_goals omega

theorem decodeRx_jump {w1 : Word} (hb : bCode w1 = 3) (disp : Word) :
    decodeRx w1 disp = .jump (dField w1) disp (aField w1) := by
  simp [decodeRx, hb]

/-- The words of an RX row decode to what its b field selects (R69, R77). -/
theorem decodesFromRx_of_row {b : Reg} (hb : b.val ≤ 6) (d a : Reg) (disp : Word) :
    DecodesFromRx b.val d a disp (decodeRx (rrrWord 15 d a b) disp) := by
  have hop : opField (rrrWord 15 d a b) = 15 := opField_rrrWord (by decide) d a b
  have hrow : bCode (rrrWord 15 d a b) ≤ 6 := by rwa [bCode_rrrWord (by decide)]
  change decode (rxWords b.val d a disp) = _
  rw [rxWords_eq, decode_two, if_pos (needsDisplacement_of_row hop hrow), decodeWord_rx hop]

/-! ## The statements -/

/-- Settles O4, by the op field: 0 to 13, 14, and 15 with and without a row for the b field. -/
theorem lengthFromOpField : Obligations.LengthFromOpField := by
  intro w1 w2 rest
  rw [← opField_eq]
  by_cases hop : opField w1 = 15
  · by_cases hb : bCode w1 ≤ 6
    · refine ⟨decodeRx w1 w2, rest, ?_, by omega, by omega, fun _ _ => ⟨(decodeRx_of_row hb w2).1, rfl⟩⟩
      rw [decode_two, if_pos (needsDisplacement_of_row hop hb), decodeWord_rx hop]
    · refine ⟨decodeRx w1 0x0000#16, w2 :: rest, ?_, by omega, by omega, fun _ hlegal => ?_⟩
      · rw [decode_one (needsDisplacement_of_no_row hb), decodeWord_rx hop]
      · rw [decodeRx_of_no_row hb] at hlegal
        cases hlegal
  · refine ⟨_, _, decode_of_op_ne hop (w2 :: rest), fun hle => ?_, fun hxx => decodeWord_xx hxx _,
      fun h => absurd h hop⟩
    obtain ⟨hwords, hlegal⟩ := decodeWord_of_op_le hle 0x0000#16
    exact ⟨hwords, rfl, hlegal⟩

/-- Settles O7: b = 3 selects `jump` whatever the d field is, and `execJump` does not look at that field. -/
theorem jumpIgnoresItsDField : Obligations.JumpIgnoresItsDField := by
  intro d d' a disp s
  refine ⟨?_, rfl⟩
  have h := decodesFromRx_of_row (b := 3) (by decide) d a disp
  rwa [decodeRx_jump (bCode_rrrWord (by decide) d a 3), dField_rrrWord (by decide),
    aField_rrrWord (by decide)] at h

end Sys2Proof.Machine
end

section
/-! PROOF. The RRR words and the arithmetic instructions (R100 to R103), the value of `DIVMOD` in its three
conventions (R107), and the statements about them. -/

namespace Sys2Proof.Machine

/-! ## The RRR words -/

/-- An RRR word decodes alone, to the row its op field selects, with its own fields (R68, R76). -/
theorem decodesFromRrr_of_row {op : Nat} (hop : op < 15) {row : Reg → Reg → Reg → Instr}
    (hrow : ∀ w, opField w = op → decodeWord w 0x0000#16 = row (dField w) (aField w) (bField w))
    (d a b : Reg) : DecodesFromRrr op d a b (row d a b) := by
  have hop16 : op < 16 := by omega
  have hfield : opField (rrrWord op d a b) = op := opField_rrrWord hop16 d a b
  change decode [rrrWord op d a b] = _
  rw [decode_of_op_ne (by omega), hrow _ hfield, dField_rrrWord hop16, aField_rrrWord hop16,
    bField_rrrWord hop16]

theorem decodesFromRrr_add (d a b : Reg) : DecodesFromRrr 0x0 d a b (.add d a b) :=
  decodesFromRrr_of_row (by decide) (fun w h => by simp [decodeWord, h]) d a b

theorem decodesFromRrr_sub (d a b : Reg) : DecodesFromRrr 0x1 d a b (.sub d a b) :=
  decodesFromRrr_of_row (by decide) (fun w h => by simp [decodeWord, h]) d a b

theorem decodesFromRrr_mul (d a b : Reg) : DecodesFromRrr 0x2 d a b (.mul d a b) :=
  decodesFromRrr_of_row (by decide) (fun w h => by simp [decodeWord, h]) d a b

theorem decodesFromRrr_div (d a b : Reg) : DecodesFromRrr 0x3 d a b (.div d a b) :=
  decodesFromRrr_of_row (by decide) (fun w h => by simp [decodeWord, h]) d a b

/-! ## Instructions that write one register -/

theorem advanced_one {s t : State} (hpc : t.pc = s.pc + 1) (hstatus : t.status = s.status) :
    Advanced 1 s t :=
  ⟨by rw [hpc, BitVec.toNat_add]; rfl, hstatus⟩

/-- An instruction whose meaning is an RRR write completes with that value in register d (R104). -/
theorem completesWriting_of_rrrWrite {i : Instr} {f : Word → Word → Word} {d a b : Reg} {s : State} {v : Word}
    (hexec : exec i s = rrrWrite f d a b s) (hv : f (s.readReg a) (s.readReg b) = v) :
    CompletesWriting i d v 1 s := by
  obtain ⟨t, hnext, hd, hregs, hmem, hpc, hstatus⟩ := rrrWrite_next f d a b s
  exact ⟨t, hexec.trans hnext, hv ▸ hd, hregs, memRead_congr hmem, advanced_one hpc hstatus⟩

theorem completesWriting_add (d a b : Reg) (s : State) :
    CompletesWriting (.add d a b) d (s.readReg a + s.readReg b) 1 s :=
  completesWriting_of_rrrWrite (f := fun p q => p + q) rfl rfl

theorem completesWriting_sub (d a b : Reg) (s : State) :
    CompletesWriting (.sub d a b) d (s.readReg a - s.readReg b) 1 s :=
  completesWriting_of_rrrWrite (f := fun p q => p - q) rfl rfl

theorem completesWriting_mul (d a b : Reg) (s : State) :
    CompletesWriting (.mul d a b) d (s.readReg a * s.readReg b) 1 s :=
  completesWriting_of_rrrWrite (f := fun p q => p * q) rfl rfl

/-! ## The operators of R105 on unsigned and signed values -/

theorem ofNat_toNat_add (p q : Word) : BitVec.ofNat 16 (p.toNat + q.toNat) = p + q := by
  simp [BitVec.ofNat_add]

theorem ofInt_toNat_sub (p q : Word) : BitVec.ofInt 16 (p.toNat - q.toNat) = p - q := by
  rw [sub_eq_add_neg, BitVec.ofInt_add, BitVec.ofInt_neg, BitVec.ofInt_natCast, BitVec.ofInt_natCast]
  simp [BitVec.sub_eq_add_neg]

theorem ofNat_toNat_mul (p q : Word) : BitVec.ofNat 16 (p.toNat * q.toNat) = p * q := by
  simp [BitVec.ofNat_mul]

theorem ofInt_toInt_mul (p q : Word) : BitVec.ofInt 16 (p.toInt * q.toInt) = p * q := by
  simp [BitVec.ofInt_mul]

/-! ## Integer quotients and remainders -/

/-- The remainder of floor division is zero or has the sign of the divisor. -/
theorem fmod_between (n : Int) {m : Int} (hm : m ≠ 0) :
    (0 ≤ n.fmod m ∧ n.fmod m < m) ∨ (m < n.fmod m ∧ n.fmod m ≤ 0) := by
  rcases lt_or_gt_of_ne hm with hneg | hpos
  · have hnonneg := Int.fmod_nonneg_of_pos (-n) (neg_pos.mpr hneg)
    have hlt := Int.fmod_lt_of_pos (-n) (neg_pos.mpr hneg)
    rw [Int.neg_fmod_neg] at hnonneg hlt
    exact .inr ⟨by omega, by omega⟩
  · exact .inl ⟨Int.fmod_nonneg_of_pos n hpos, Int.fmod_lt_of_pos n hpos⟩

theorem abs_tmod_lt (n : Int) {m : Int} (hm : m ≠ 0) : |n.tmod m| < |m| := by
  rw [Int.abs_eq_natAbs, Int.abs_eq_natAbs, Int.natAbs_tmod]
  exact_mod_cast Nat.mod_lt _ (Int.natAbs_pos.mpr hm)

theorem tmod_nonpos {n : Int} (m : Int) (hn : n ≤ 0) : n.tmod m ≤ 0 := by
  have h := Int.tmod_nonneg m (neg_nonneg.mpr hn)
  rw [Int.neg_tmod] at h
  omega

theorem natCast_div_mul_add_mod (n m : Nat) : ((n / m : Nat) : Int) * m + (n % m : Nat) = n :=
  mod_cast Nat.div_add_mod' n m

/-! ## `DIVMOD` (R107) -/

theorem divInt_signedFloor (n m : Word) :
    divInt .signedFloor n m = (n.toInt.fdiv m.toInt, n.toInt.fmod m.toInt) := by
  rw [Int.fmod_def, mul_comm]
  simp only [divInt, signedValue_eq_toInt]

theorem divInt_signedTrunc (n m : Word) :
    divInt .signedTrunc n m = (n.toInt.tdiv m.toInt, n.toInt.tmod m.toInt) := by
  rw [Int.tmod_def, mul_comm]
  simp only [divInt, signedValue_eq_toInt]

theorem divInt_unsigned (n m : Word) :
    divInt .unsigned n m = (((n.toNat / m.toNat : Nat) : Int), ((n.toNat % m.toNat : Nat) : Int)) := by
  rw [eq_sub_of_add_eq' (natCast_div_mul_add_mod n.toNat m.toNat)]
  rfl

theorem divMod_unsigned (n m : Word) : divMod .unsigned n m =
    (BitVec.ofNat 16 (n.toNat / m.toNat), BitVec.ofNat 16 (n.toNat % m.toNat)) := by
  simp only [divMod, divInt_unsigned, wordOfInt, BitVec.ofInt_natCast]

/-- Where `n = Q * m + R` holds of integers that stand for the words, it holds of the words. -/
theorem ofInt_mul_add {n m : Word} {N M Q R : Int} (hn : BitVec.ofInt 16 N = n) (hm : BitVec.ofInt 16 M = m)
    (h : Q * M + R = N) : BitVec.ofInt 16 Q * m + BitVec.ofInt 16 R = n := by
  rw [← hn, ← hm, ← h, BitVec.ofInt_add, BitVec.ofInt_mul]

/-- `n = q *16 m +16 r` in every convention. -/
theorem divMod_mul_add (c : Config.DivConvention) (n m : Word) :
    (divMod c n m).1 * m + (divMod c n m).2 = n := by
  cases c with
  | signedFloor =>
    rw [divMod, divInt_signedFloor]
    exact ofInt_mul_add BitVec.ofInt_toInt BitVec.ofInt_toInt (Int.fdiv_mul_add_fmod _ _)
  | signedTrunc =>
    rw [divMod, divInt_signedTrunc]
    exact ofInt_mul_add BitVec.ofInt_toInt BitVec.ofInt_toInt (Int.tdiv_mul_add_tmod _ _)
  | unsigned =>
    rw [divMod, divInt_unsigned]
    exact ofInt_mul_add (by simp) (by simp) (natCast_div_mul_add_mod n.toNat m.toNat)

theorem toInt_of_le {w : Word} (h : w.toNat ≤ 0x7FFF) : w.toInt = w.toNat :=
  BitVec.toInt_eq_toNat_of_lt (by omega)

/-- The conventions agree where both operands are non-negative as signed numbers. -/
theorem divMod_of_nonneg {n m : Word} (hn : n.toNat ≤ 0x7FFF) (hm : m.toNat ≤ 0x7FFF)
    (c : Config.DivConvention) : divMod c n m = divMod .unsigned n m := by
  cases c with
  | signedFloor =>
    simp only [divMod, divInt_signedFloor, divInt_unsigned, toInt_of_le hn, toInt_of_le hm,
      Int.fdiv_eq_ediv_of_nonneg, Int.fmod_eq_emod_of_nonneg, Int.natCast_nonneg, Int.natCast_ediv,
      Int.natCast_emod]
  | signedTrunc =>
    simp only [divMod, divInt_signedTrunc, divInt_unsigned, toInt_of_le hn, toInt_of_le hm,
      Int.ofNat_tdiv, Int.ofNat_tmod]
  | unsigned => rfl

theorem divMod_zero (c : Config.DivConvention) (m : Word) :
    divMod c 0x0000#16 m = (0x0000#16, 0x0000#16) := by
  cases c with
  | signedFloor => simp [divMod, divInt_signedFloor, wordOfInt]
  | signedTrunc => simp [divMod, divInt_signedTrunc, wordOfInt]
  | unsigned => simp [divMod_unsigned]

/-- The row of `signed_floor` in R107's table. -/
theorem divMod_signedFloor_row (n : Word) {m : Word} (hm : m.toInt ≠ 0) :
    ∃ Q R : Int, n.toInt = Q * m.toInt + R ∧ ((0 ≤ R ∧ R < m.toInt) ∨ (m.toInt < R ∧ R ≤ 0)) ∧
      divMod .signedFloor n m = (BitVec.ofInt 16 Q, BitVec.ofInt 16 R) := by
  refine ⟨_, _, (Int.fdiv_mul_add_fmod n.toInt m.toInt).symm, fmod_between n.toInt hm, ?_⟩
  rw [divMod, divInt_signedFloor]
  rfl

/-- The row of `signed_trunc` in R107's table. -/
theorem divMod_signedTrunc_row (n : Word) {m : Word} (hm : m.toInt ≠ 0) :
    ∃ Q R : Int, n.toInt = Q * m.toInt + R ∧ |R| < |m.toInt| ∧
      (0 ≤ n.toInt → 0 ≤ R) ∧ (n.toInt ≤ 0 → R ≤ 0) ∧
      divMod .signedTrunc n m = (BitVec.ofInt 16 Q, BitVec.ofInt 16 R) := by
  refine ⟨_, _, (Int.tdiv_mul_add_tmod n.toInt m.toInt).symm, abs_tmod_lt n.toInt hm,
    Int.tmod_nonneg m.toInt, tmod_nonpos m.toInt, ?_⟩
  rw [divMod, divInt_signedTrunc]
  rfl

/-! ## `div` -/

theorem execDiv_overlap (a b : Reg) (s : State) :
    execDiv a a b s = .fault (.unspecifiedDivOverlap s.pc) := if_pos rfl

theorem execDiv_zero {d a b : Reg} {s : State} (hda : d ≠ a) (hb : s.readReg b = 0x0000#16) :
    execDiv d a b s = .fault (.divideByZero s.pc) := by
  rw [execDiv, if_neg hda, if_pos hb]

/-- The state after two register writes is in the frame of the two registers. -/
theorem sameRegsBut_writeReg_writeReg (s : State) (d a : Reg) (q r : Word) :
    SameRegsBut [d, a] s ((s.writeReg d q).writeReg a r) := by
  intro x hx
  obtain ⟨hxd, hxa⟩ : x ≠ d ∧ x ≠ a := by simpa using hx
  rw [readReg_writeReg_of_ne _ _ hxa, readReg_writeReg_of_ne _ _ hxd]

/-! ## The statements -/

/-- Settles O24: `BitVec` addition is R105's `+16`. -/
theorem addByRule : Obligations.AddByRule := by
  intro d a b s
  rw [ofNat_toNat_add]
  exact ⟨decodesFromRrr_add d a b, completesWriting_add d a b s⟩

/-- Settles O25: `BitVec` subtraction is R105's `-16`. -/
theorem subByRule : Obligations.SubByRule := by
  intro d a b s
  rw [ofInt_toNat_sub]
  exact ⟨decodesFromRrr_sub d a b, completesWriting_sub d a b s⟩

/-- Settles O26: both readings of the operands give the `BitVec` product. -/
theorem mulByRule : Obligations.MulByRule := by
  intro d a b s
  rw [ofNat_toNat_mul, ofInt_toInt_mul]
  exact ⟨decodesFromRrr_mul d a b, completesWriting_mul d a b s, completesWriting_mul d a b s⟩

/-- Settles O27: the two faults in R103's order; then the quotient in d survives the later write of the
remainder to a, because d is not a. -/
theorem divByRule : Obligations.DivByRule := by
  intro d a b s
  refine ⟨decodesFromRrr_div d a b, ?_, execDiv_zero, fun hda hb => ?_⟩
  · rintro rfl
    exact execDiv_overlap d b s
  · refine ⟨_, execDiv_next_iff.mpr ⟨hda, hb, rfl⟩, ?_, readReg_writeReg_same _ _ _,
      sameRegsBut_writeReg_writeReg (s.advance 1) d a _ _, memRead_congr (by simp),
      advanced_one (by simp) (by simp)⟩
    rw [readReg_writeReg_of_ne _ _ hda, readReg_writeReg_same]

/-- Settles O28: each signed row by its library division, the agreement through `divMod_unsigned`. -/
theorem divModByRule : Obligations.DivModByRule := by
  refine ⟨rfl, by decide, by decide, fun n m hm => ?_⟩
  have hm' : m.toInt ≠ 0 := fun h => hm (BitVec.toInt_inj.mp h)
  refine ⟨divMod_signedFloor_row n hm', divMod_signedTrunc_row n hm', divMod_unsigned n m,
    fun c => divMod_mul_add c n m, fun hn hle c => ?_, ?_⟩
  · rw [divMod_of_nonneg hn hle, divMod_unsigned]
  · rintro rfl c
    exact divMod_zero c m

end Sys2Proof.Machine
end

section
/-! PROOF. The two readings of "<" and ">" (R110, R112, R114), the words the comparisons write (R113), and
the statements about the readings and about `cmplt` and `cmpeq`. -/

namespace Sys2Proof.Machine

/-! ## What each reading compares -/

theorem lessThan_signed (p q : Word) : lessThan true p q = decide (p.toInt < q.toInt) := by
  rw [← signedValue_eq_toInt, ← signedValue_eq_toInt]
  rfl

theorem lessThan_unsigned (p q : Word) : lessThan false p q = decide (p.toNat < q.toNat) := rfl

/-- In either reading ">" is "<" with the operands exchanged (R112). -/
theorem greaterThan_eq_lessThan (signed : Bool) (p q : Word) :
    greaterThan signed p q = lessThan signed q p := rfl

theorem greaterThan_signed (p q : Word) : greaterThan true p q = decide (p.toInt > q.toInt) :=
  (greaterThan_eq_lessThan true p q).trans (lessThan_signed q p)

theorem greaterThan_unsigned (p q : Word) : greaterThan false p q = decide (p.toNat > q.toNat) := rfl

/-! ## Where the readings agree -/

/-- Bit 15 of both operands is the same exactly when both are below 0x8000 or neither is. -/
theorem msb_eq_msb_iff (p q : Word) : p.msb = q.msb ↔ (p.toNat < 0x8000 ↔ q.toNat < 0x8000) := by
  rw [BitVec.msb_eq_decide, BitVec.msb_eq_decide, decide_eq_decide, ← not_lt, ← not_lt, not_iff_not]

/-- The signed order is the unsigned order, inverted where bit 15 of the operands differs (R114). -/
theorem lessThan_signed_eq_xor (p q : Word) :
    lessThan true p q = ((p.msb != q.msb) ^^ lessThan false p q) :=
  (lessThan_signed p q).trans BitVec.slt_eq_ult

theorem lessThan_readings_agree_iff (p q : Word) :
    lessThan true p q = lessThan false p q ↔ (p.toNat < 0x8000 ↔ q.toNat < 0x8000) :=
  calc lessThan true p q = lessThan false p q
    _ ↔ ((p.msb != q.msb) ^^ lessThan false p q) = (false ^^ lessThan false p q) := by
      rw [lessThan_signed_eq_xor, Bool.false_xor]
    _ ↔ (p.msb != q.msb) = false := Bool.xor_left_inj
    _ ↔ p.msb = q.msb := bne_eq_false_iff_eq
    _ ↔ (p.toNat < 0x8000 ↔ q.toNat < 0x8000) := msb_eq_msb_iff p q

theorem greaterThan_readings_agree_iff (p q : Word) :
    greaterThan true p q = greaterThan false p q ↔ (p.toNat < 0x8000 ↔ q.toNat < 0x8000) := by
  rw [greaterThan_eq_lessThan, greaterThan_eq_lessThan, lessThan_readings_agree_iff]
  exact Iff.comm

/-! ## The words the comparisons write -/

theorem decodesFromRrr_cmplt (d a b : Reg) : DecodesFromRrr 0x4 d a b (.cmplt d a b) :=
  decodesFromRrr_of_row (by decide) (fun w h => by simp [decodeWord, h]) d a b

theorem decodesFromRrr_cmpeq (d a b : Reg) : DecodesFromRrr 0x5 d a b (.cmpeq d a b) :=
  decodesFromRrr_of_row (by decide) (fun w h => by simp [decodeWord, h]) d a b

/-- "=" as a truth value: 0x0001 exactly when the two words are the same (R111, R113). -/
theorem boolWord_wordsEqual (p q : Word) :
    boolWord (wordsEqual p q) = if p = q then 0x0001#16 else 0x0000#16 := by
  simp [boolWord_eq, wordsEqual]

theorem completesWriting_cmplt (d a b : Reg) (s : State) :
    CompletesWriting (.cmplt d a b) d
      (boolWord (lessThan Config.cmpSigned (s.readReg a) (s.readReg b))) 1 s :=
  completesWriting_of_rrrWrite (f := fun p q => boolWord (lessThan Config.cmpSigned p q)) rfl rfl

theorem completesWriting_cmpeq (d a b : Reg) (s : State) :
    CompletesWriting (.cmpeq d a b) d (boolWord (wordsEqual (s.readReg a) (s.readReg b))) 1 s :=
  completesWriting_of_rrrWrite (f := fun p q => boolWord (wordsEqual p q)) rfl rfl

/-! ## The statements -/

/-- Settles O33: the two readings differ exactly where the two sign bits do, by `lessThan_signed_eq_xor`. -/
theorem signedAndUnsignedReadings : Obligations.SignedAndUnsignedReadings :=
  ⟨rfl, fun p q => ⟨lessThan_signed p q, lessThan_unsigned p q, greaterThan_signed p q,
    greaterThan_unsigned p q, lessThan_readings_agree_iff p q, greaterThan_readings_agree_iff p q⟩⟩

/-- Settles O29: an RRR write of the truth value of "<". -/
theorem cmpltByRule : Obligations.CmpltByRule := by
  refine ⟨rfl, rfl, lessThan_signed, lessThan_unsigned, fun d a b s => ⟨decodesFromRrr_cmplt d a b, ?_⟩⟩
  rw [← boolWord_eq]
  exact completesWriting_cmplt d a b s

/-- Settles O30: an RRR write of the truth value of "=", which is decided equality of the words. -/
theorem cmpeqByRule : Obligations.CmpeqByRule := by
  intro d a b s
  rw [← boolWord_wordsEqual]
  exact ⟨decodesFromRrr_cmpeq d a b, completesWriting_cmpeq d a b s⟩

end Sys2Proof.Machine
end

section
/-! PROOF. The logic opcodes, which are no-operations (R120 to R123, R126), the shared shift operation for
every supplied function (R124, R125), and the statements about them. -/

namespace Sys2Proof.Machine

/-! ## The RRR words of the logic and shift opcodes -/

theorem decodesFromRrr_inv (d a b : Reg) : DecodesFromRrr 0x7 d a b (.inv d a b) :=
  decodesFromRrr_of_row (by decide) (fun w h => by simp [decodeWord, h]) d a b

theorem decodesFromRrr_and (d a b : Reg) : DecodesFromRrr 0x8 d a b (.and d a b) :=
  decodesFromRrr_of_row (by decide) (fun w h => by simp [decodeWord, h]) d a b

theorem decodesFromRrr_or (d a b : Reg) : DecodesFromRrr 0x9 d a b (.or d a b) :=
  decodesFromRrr_of_row (by decide) (fun w h => by simp [decodeWord, h]) d a b

theorem decodesFromRrr_xor (d a b : Reg) : DecodesFromRrr 0xa d a b (.xor d a b) :=
  decodesFromRrr_of_row (by decide) (fun w h => by simp [decodeWord, h]) d a b

theorem decodesFromRrr_shiftl (d a b : Reg) : DecodesFromRrr 0xb d a b (.shiftl d a b) :=
  decodesFromRrr_of_row (by decide) (fun w h => by simp [decodeWord, h]) d a b

theorem decodesFromRrr_shiftr (d a b : Reg) : DecodesFromRrr 0xc d a b (.shiftr d a b) :=
  decodesFromRrr_of_row (by decide) (fun w h => by simp [decodeWord, h]) d a b

/-! ## What the opcodes do -/

theorem exec_inv (d a b : Reg) (s : State) : exec (.inv d a b) s = .next (s.advance 1) :=
  noOperation_next s

theorem exec_and (d a b : Reg) (s : State) : exec (.and d a b) s = .next (s.advance 1) :=
  noOperation_next s

theorem exec_or (d a b : Reg) (s : State) : exec (.or d a b) s = .next (s.advance 1) :=
  noOperation_next s

theorem exec_xor (d a b : Reg) (s : State) : exec (.xor d a b) s = .next (s.advance 1) :=
  noOperation_next s

theorem exec_shiftl (d a b : Reg) (s : State) :
    exec (.shiftl d a b) s = shiftBy Config.shiftlFn d a b s := rfl

theorem exec_shiftr (d a b : Reg) (s : State) :
    exec (.shiftr d a b) s = shiftBy Config.shiftrFn d a b s := rfl

/-- With a supplied function a shift writes register d and moves `pc` one word (R124, R125): `shiftBy_some`
in the terms the statements use. -/
theorem shiftBy_completes (f : Config.ShiftFn) (d a b : Reg) (s : State) :
    ∃ t, shiftBy (some f) d a b s = .next t ∧
      t.readReg d = wordAfterWrite d (f (s.readReg d) (s.readReg a) (s.readReg b)) ∧
      SameRegsBut [d] s t ∧ SameMemory s t ∧ Advanced 1 s t := by
  obtain ⟨t, hnext, hd, hregs, hmem, hpc, hstatus⟩ := shiftBy_some f d a b s
  exact ⟨t, hnext, hd, hregs, memRead_congr hmem, advanced_one hpc hstatus⟩

/-! ## The statements -/

/-- Settles O34: the state that all four opcodes leave is the old one with `pc` moved one word. -/
theorem logicOpcodesDoNothing : Obligations.LogicOpcodesDoNothing := by
  intro d a b s
  refine ⟨decodesFromRrr_inv d a b, decodesFromRrr_and d a b, decodesFromRrr_or d a b,
    decodesFromRrr_xor d a b, s.advance 1, ?_⟩
  exact ⟨exec_inv d a b s, exec_and d a b s, exec_or d a b s, exec_xor d a b s, advance_regs s 1,
    advance_mem s 1, advance_advanced s 1⟩

/-- Settles O35: the shared shift operation, without and with a supplied function. -/
theorem shiftlByRule : Obligations.ShiftlByRule := fun d a b s =>
  ⟨decodesFromRrr_shiftl d a b, exec_shiftl d a b s, shiftBy_none d a b s,
    fun f => shiftBy_completes f d a b s⟩

/-- Settles O36: the shared shift operation, without and with a supplied function. -/
theorem shiftrByRule : Obligations.ShiftrByRule := fun d a b s =>
  ⟨decodesFromRrr_shiftr d a b, exec_shiftr d a b s, shiftBy_none d a b s,
    fun f => shiftBy_completes f d a b s⟩

end Sys2Proof.Machine
end

section
/-! PROOF. `trap` (R130, R166), the first words that stand for no instruction (R131, R132), what a faulting
step reports (R162), and the statements about them. -/

namespace Sys2Proof.Machine

/-! ## `trap` -/

theorem decodesFromRrr_trap (d a b : Reg) : DecodesFromRrr 0xd d a b (.trap d a b) :=
  decodesFromRrr_of_row (by decide) (fun w h => by simp [decodeWord, h]) d a b

theorem exec_trap (d a b : Reg) (s : State) : exec (.trap d a b) s = .next s.takeTrap := rfl

/-! ## The undefined first words -/

theorem exec_illegalXX (w1 : Word) (s : State) :
    exec (.illegalXX w1) s = .fault (.illegalInstruction s.pc w1) := rfl

theorem exec_illegalRxB7 (w1 : Word) (s : State) :
    exec (.illegalRxB7 w1) s = .fault (.illegalInstruction s.pc w1) := rfl

theorem exec_illegalRxB8to15 (w1 : Word) (s : State) :
    exec (.illegalRxB8to15 w1) s = .fault (.illegalInstruction s.pc w1) := rfl

theorem decodeRx_b7 {w1 : Word} (hb : bCode w1 = 7) (disp : Word) : decodeRx w1 disp = .illegalRxB7 w1 := by
  simp [decodeRx, hb]

theorem decodeRx_b8to15 {w1 : Word} (hb : 8 ≤ bCode w1) (disp : Word) :
    decodeRx w1 disp = .illegalRxB8to15 w1 := by
  unfold decodeRx
  split
  case h_9 => rfl
  all_goals omega

/-- A step of a running machine whose first word needs no displacement runs what that word alone decodes
to: no second word is fetched (R27, R131, R132). -/
theorem step_of_not_needsDisplacement {s : State} (hs : s.status = .running)
    (h : needsDisplacement (s.memRead s.pc) = false) :
    step s = exec (decodeWord (s.memRead s.pc) 0x0000#16) s :=
  step_of_decode hs (decode_one h _)

/-- An XX word faults without a second fetch (R131). -/
theorem step_xx {s : State} (hs : s.status = .running) (hop : opField (s.memRead s.pc) = 14) :
    step s = .fault (.illegalInstruction s.pc (s.memRead s.pc)) := by
  rw [step_of_not_needsDisplacement hs (needsDisplacement_of_op_ne (by omega)), decodeWord_xx hop,
    exec_illegalXX]

/-- A word of the RX escape whose b field has no row faults the same, for 7 as for 8 to 15 (R132). -/
theorem step_rx_of_no_row {s : State} (hs : s.status = .running) (hop : opField (s.memRead s.pc) = 15)
    (hb : 7 ≤ bCode (s.memRead s.pc)) :
    step s = .fault (.illegalInstruction s.pc (s.memRead s.pc)) := by
  rw [step_of_not_needsDisplacement hs (needsDisplacement_of_no_row (by omega)), decodeWord_rx hop]
  rcases hb.eq_or_lt with h7 | h8
  · rw [decodeRx_b7 h7.symm, exec_illegalRxB7]
  · rw [decodeRx_b8to15 h8, exec_illegalRxB8to15]

/-- After a fault the state reported is the one the step began in, with the fault as its status (R162, R172). -/
theorem reported_of_step_fault {s : State} {f : Fault} (h : step s = .fault f) :
    s.reported = s.setStatus (.faulted f) := by
  rw [State.reported, h]
  rfl

/-! ## The statements -/

/-- Settles O38: trap entry is all that `trap` does, and no field of it is looked at. -/
theorem trapByRule : Obligations.TrapByRule := fun d a b s =>
  ⟨decodesFromRrr_trap d a b, s.takeTrap, exec_trap d a b s, takeTrap_pc s, takeTrap_status s,
    takeTrap_regs s, takeTrap_mem s⟩

/-- Settles O39: the step by the op field of the first word, 14 or 15; what it reports follows from its fault. -/
theorem undefinedWordsFault : Obligations.UndefinedWordsFault := by
  refine ⟨fun w1 s => ⟨exec_illegalXX w1 s, exec_illegalRxB7 w1 s, exec_illegalRxB8to15 w1 s⟩, ?_⟩
  rintro s _ hs rfl hundef
  rw [← opField_eq, ← bCode_eq] at hundef
  have hstep : step s = .fault (.illegalInstruction s.pc (s.memRead s.pc)) := by
    rcases hundef with hop | ⟨hop, hb⟩
    · exact step_xx hs hop
    · exact step_rx_of_no_row hs hop hb
  exact ⟨hstep, reported_of_step_fault hstep⟩

end Sys2Proof.Machine
end

section
/-! PROOF. The RX words (R69, R77), the address and memory instructions (R140 to R144), and the statements
about them. -/

namespace Sys2Proof.Machine

/-! ## The RX words -/

/-- The two words of an RX row decode to the instruction its b field selects, with the fields of the first
word and the second word as the displacement: `decodesFromRx_of_row` with the fields read off. -/
theorem decodesFromRx_of_code {b : Reg} (hb : b.val ≤ 6) {row : Reg → Word → Reg → Instr}
    (hrow : ∀ w disp, bCode w = b.val → decodeRx w disp = row (dField w) disp (aField w))
    (d a : Reg) (disp : Word) : DecodesFromRx b.val d a disp (row d disp a) := by
  have h := decodesFromRx_of_row hb d a disp
  rwa [hrow _ disp (bCode_rrrWord (by decide) d a b), dField_rrrWord (by decide),
    aField_rrrWord (by decide)] at h

theorem decodesFromRx_lea (d a : Reg) (disp : Word) : DecodesFromRx 0 d a disp (.lea d disp a) :=
  decodesFromRx_of_code (b := 0) (by decide) (fun w disp h => by simp [decodeRx, h]) d a disp

theorem decodesFromRx_load (d a : Reg) (disp : Word) : DecodesFromRx 1 d a disp (.load d disp a) :=
  decodesFromRx_of_code (b := 1) (by decide) (fun w disp h => by simp [decodeRx, h]) d a disp

theorem decodesFromRx_store (d a : Reg) (disp : Word) : DecodesFromRx 2 d a disp (.store d disp a) :=
  decodesFromRx_of_code (b := 2) (by decide) (fun w disp h => by simp [decodeRx, h]) d a disp

/-! ## What the instructions do -/

theorem exec_lea (d a : Reg) (disp : Word) (s : State) :
    exec (.lea d disp a) s = .next ((s.advance 2).writeReg d (s.effectiveAddress disp a)) := rfl

theorem exec_load (d a : Reg) (disp : Word) (s : State) :
    exec (.load d disp a) s =
      .next ((s.advance 2).writeReg d (s.memRead (s.effectiveAddress disp a))) := rfl

theorem exec_store (d a : Reg) (disp : Word) (s : State) :
    exec (.store d disp a) s =
      .next ((s.advance 2).memWrite (s.effectiveAddress disp a) (s.readReg d)) := rfl

/-- The effective address is the `+16` of R105 on the displacement and register a (R140). -/
theorem effectiveAddress_eq (s : State) (disp : Word) (a : Reg) :
    s.effectiveAddress disp a = BitVec.ofNat 16 (disp.toNat + (s.readReg a).toNat) :=
  (ofNat_toNat_add disp (s.readReg a)).symm

/-- Fields that a later update leaves alone keep the advance. -/
theorem advanced_congr {n : Nat} {s t u : State} (h : Advanced n s t) (hpc : u.pc = t.pc)
    (hstatus : u.status = t.status) : Advanced n s u :=
  ⟨hpc ▸ h.1, hstatus.trans h.2⟩

/-- An instruction that moves `pc` past its words and then writes one register completes with that word. -/
theorem completesWriting_of_advance_writeReg {i : Instr} {d : Reg} {v : Word} {n : Nat} {s : State}
    (hexec : exec i s = .next ((s.advance n).writeReg d v)) : CompletesWriting i d v n s :=
  ⟨_, hexec, readReg_writeReg_same _ d v, sameRegsBut_writeReg (s.advance n) d v,
    memRead_congr (writeReg_mem _ d v),
    advanced_congr (advance_advanced s n) (writeReg_pc _ d v) (writeReg_status _ d v)⟩

/-! ## The statements -/

/-- Settles O40: a register write of the effective address after the advance. -/
theorem leaByRule : Obligations.LeaByRule := by
  intro d a disp s
  rw [← effectiveAddress_eq]
  exact ⟨decodesFromRx_lea d a disp, completesWriting_of_advance_writeReg (exec_lea d a disp s)⟩

/-- Settles O41: a register write, after the advance, of the word that the effective address holds. -/
theorem loadByRule : Obligations.LoadByRule := by
  intro d a disp s
  rw [← effectiveAddress_eq]
  exact ⟨decodesFromRx_load d a disp, completesWriting_of_advance_writeReg (exec_load d a disp s)⟩

/-- Settles O42: the memory laws R42 and R54 at the effective address; no register is written. -/
theorem storeByRule : Obligations.StoreByRule := by
  intro d a disp s
  refine ⟨decodesFromRx_store d a disp, effectiveAddress_toNat s disp a, _, exec_store d a disp s,
    memRead_memWrite_same _ _ _, fun _ hne => memRead_memWrite_of_ne (s.advance 2) _ hne,
    fun r _ => readReg_memWrite (s.advance 2) _ _ r, ?_⟩
  exact advanced_congr (advance_advanced s 2) (memWrite_pc _ _ _) (memWrite_status _ _ _)

end Sys2Proof.Machine
end

section
/-! PROOF. The RX words of the control transfers (R69, R77), the state each of them leaves (R150 to R153,
R156), and the statements about them. -/

namespace Sys2Proof.Machine

/-! ## The RX words of the control transfers -/

theorem decodesFromRx_jump (d a : Reg) (disp : Word) : DecodesFromRx 3 d a disp (.jump d disp a) :=
  decodesFromRx_of_code (b := 3) (by decide) (fun _ disp h => decodeRx_jump h disp) d a disp

theorem decodesFromRx_jumpf (d a : Reg) (disp : Word) : DecodesFromRx 4 d a disp (.jumpf d disp a) :=
  decodesFromRx_of_code (b := 4) (by decide) (fun w disp h => by simp [decodeRx, h]) d a disp

theorem decodesFromRx_jumpt (d a : Reg) (disp : Word) : DecodesFromRx 5 d a disp (.jumpt d disp a) :=
  decodesFromRx_of_code (b := 5) (by decide) (fun w disp h => by simp [decodeRx, h]) d a disp

theorem decodesFromRx_jal (d a : Reg) (disp : Word) : DecodesFromRx 6 d a disp (.jal d disp a) :=
  decodesFromRx_of_code (b := 6) (by decide) (fun w disp h => by simp [decodeRx, h]) d a disp

/-! ## What the instructions do -/

/-- The test of the conditional jumps looks at all 16 bits (R151, R152). -/
theorem isZeroWord_iff (w : Word) : isZeroWord w = true ↔ w.toNat = 0 := by
  rw [isZeroWord, decide_eq_true_iff, ← BitVec.toNat_inj]
  rfl

theorem exec_jump (d a : Reg) (disp : Word) (s : State) :
    exec (.jump d disp a) s = .next (s.setPc (s.effectiveAddress disp a)) := rfl

theorem exec_jumpf (d a : Reg) (disp : Word) (s : State) :
    exec (.jumpf d disp a) s =
      .next (if isZeroWord (s.readReg d) then s.setPc (s.effectiveAddress disp a) else s.advance 2) := rfl

theorem exec_jumpt (d a : Reg) (disp : Word) (s : State) :
    exec (.jumpt d disp a) s =
      .next (if isZeroWord (s.readReg d) then s.advance 2 else s.setPc (s.effectiveAddress disp a)) := rfl

theorem exec_jal (d a : Reg) (disp : Word) (s : State) :
    exec (.jal d disp a) s =
      .next (((s.advance 2).writeReg d (s.advance 2).pc).setPc (s.effectiveAddress disp a)) := rfl

section
variable {d : Reg} {s : State}

theorem exec_jumpf_of_zero (h : (s.readReg d).toNat = 0) (disp : Word) (a : Reg) :
    exec (.jumpf d disp a) s = .next (s.setPc (s.effectiveAddress disp a)) := by
  rw [exec_jumpf, if_pos ((isZeroWord_iff _).2 h)]

theorem exec_jumpf_of_nonzero (h : (s.readReg d).toNat ≠ 0) (disp : Word) (a : Reg) :
    exec (.jumpf d disp a) s = .next (s.advance 2) := by
  rw [exec_jumpf, if_neg (mt (isZeroWord_iff _).1 h)]

theorem exec_jumpt_of_zero (h : (s.readReg d).toNat = 0) (disp : Word) (a : Reg) :
    exec (.jumpt d disp a) s = .next (s.advance 2) := by
  rw [exec_jumpt, if_pos ((isZeroWord_iff _).2 h)]

theorem exec_jumpt_of_nonzero (h : (s.readReg d).toNat ≠ 0) (disp : Word) (a : Reg) :
    exec (.jumpt d disp a) s = .next (s.setPc (s.effectiveAddress disp a)) := by
  rw [exec_jumpt, if_neg (mt (isZeroWord_iff _).1 h)]

end

/-! ## Where `pc` goes, and the frame -/

/-- The `pc` of an advance in the terms the statements use: the sum modulo 65536 (R28). -/
theorem advance_pc_eq_ofNat (s : State) (n : Nat) : (s.advance n).pc = BitVec.ofNat 16 (s.pc.toNat + n) := by
  rw [advance_pc, BitVec.ofNat_add, BitVec.ofNat_toNat, BitVec.setWidth_eq]

/-- An instruction that sets `pc` and nothing else completes there. -/
theorem completesJumping_of_setPc {i : Instr} {v : Word} {s : State} (hexec : exec i s = .next (s.setPc v)) :
    CompletesJumping i v s :=
  ⟨_, hexec, setPc_pc s v, fun r _ => readReg_setPc s v r, memRead_setPc s v, setPc_status s v⟩

/-- A taken jump completes at the effective address (R140). -/
theorem completesJumping_taken {i : Instr} {disp : Word} {a : Reg} {s : State}
    (hexec : exec i s = .next (s.setPc (s.effectiveAddress disp a))) :
    CompletesJumping i (BitVec.ofNat 16 (disp.toNat + (s.readReg a).toNat)) s :=
  effectiveAddress_eq s disp a ▸ completesJumping_of_setPc hexec

/-- A jump that is not taken completes at the next instruction (R156): an advance only sets `pc`. -/
theorem completesJumping_not_taken {i : Instr} {s : State} (hexec : exec i s = .next (s.advance 2)) :
    CompletesJumping i (BitVec.ofNat 16 (s.pc.toNat + 2)) s :=
  advance_pc_eq_ofNat s 2 ▸ completesJumping_of_setPc hexec

/-! ## The statements -/

/-- Settles O45: an unconditional jump is always taken. -/
theorem jumpByRule : Obligations.JumpByRule := fun d a disp s =>
  ⟨decodesFromRx_jump d a disp, completesJumping_taken (exec_jump d a disp s)⟩

/-- Settles O46, by whether register d holds 0x0000. -/
theorem jumpfByRule : Obligations.JumpfByRule := by
  intro d a disp s
  refine ⟨decodesFromRx_jumpf d a disp, ?_⟩
  split
  case isTrue hzero => exact completesJumping_taken (exec_jumpf_of_zero hzero disp a)
  case isFalse hnonzero => exact completesJumping_not_taken (exec_jumpf_of_nonzero hnonzero disp a)

/-- Settles O47, by whether register d holds a nonzero word. -/
theorem jumptByRule : Obligations.JumptByRule := by
  intro d a disp s
  refine ⟨decodesFromRx_jumpt d a disp, ?_⟩
  split
  case isTrue hnonzero => exact completesJumping_taken (exec_jumpt_of_nonzero hnonzero disp a)
  case isFalse hzero => exact completesJumping_not_taken (exec_jumpt_of_zero (not_not.1 hzero) disp a)

/-- Settles O48: a register write of the advanced `pc`, under a jump to an address that was computed from the
old registers, so that d = a needs no case of its own. -/
theorem jalByRule : Obligations.JalByRule := by
  intro d a disp s
  rw [← effectiveAddress_eq, ← advance_pc_eq_ofNat]
  exact ⟨decodesFromRx_jal d a disp, _, exec_jal d a disp s, setPc_pc _ _, readReg_writeReg_same _ d _,
    sameRegsBut_writeReg (s.advance 2) d _, memRead_congr (writeReg_mem (s.advance 2) d _),
    writeReg_status (s.advance 2) d _⟩

end Sys2Proof.Machine
end

section
/-! PROOF. The run status that a completed instruction leaves (R172, R173), the states no step leads on from,
and the statements about the run status and the end of the run. -/

namespace Sys2Proof.Machine

/-! ## The run status after a completed instruction -/

theorem rrrWrite_status {f : Word → Word → Word} {d a b : Reg} {s t : State}
    (h : rrrWrite f d a b s = .next t) : t.status = s.status := by
  obtain ⟨u, hu, -, -, -, -, hstatus⟩ := rrrWrite_next f d a b s
  obtain rfl : u = t := Host.Outcome.next.inj (hu.symm.trans h)
  exact hstatus

theorem shiftBy_status {f : Config.ShiftFn} {d a b : Reg} {s t : State}
    (h : shiftBy (some f) d a b s = .next t) : t.status = s.status := by
  obtain ⟨u, hu, -, -, -, -, hstatus⟩ := shiftBy_some f d a b s
  obtain rfl : u = t := Host.Outcome.next.inj (hu.symm.trans h)
  exact hstatus

theorem noOperation_status {s t : State} (h : noOperation s = .next t) : t.status = s.status := by
  obtain rfl := Host.Outcome.next.inj h
  exact advance_status s 1

/-- A completed instruction other than `trap` leaves the run status as it was (R172). -/
theorem exec_status {i : Instr} {s t : State} (h : exec i s = .next t) (hi : ∀ d a b, i ≠ .trap d a b) :
    t.status = s.status := by
  cases i with
  | add d a b | sub d a b | mul d a b | cmplt d a b | cmpeq d a b | cmpgt d a b =>
    dsimp only [exec] at h
    exact rrrWrite_status h
  | div d a b =>
    obtain ⟨-, -, rfl⟩ := execDiv_next_iff.mp h
    simp
  | inv d a b | and d a b | or d a b | xor d a b => exact noOperation_status h
  | shiftl d a b | shiftr d a b => exact shiftBy_status h
  | lea d disp a | load d disp a | jal d disp a =>
    obtain rfl := Host.Outcome.next.inj h
    exact writeReg_status (s.advance 2) d _
  | store d disp a | jump d disp a =>
    obtain rfl := Host.Outcome.next.inj h
    rfl
  | jumpf d disp a | jumpt d disp a =>
    obtain rfl := Host.Outcome.next.inj h
    split <;> rfl
  | trap d a b => exact absurd rfl (hi d a b)
  | illegalXX w1 | illegalRxB7 w1 | illegalRxB8to15 w1 => cases h

theorem step_of_fetch_trap {s t : State} {d a b : Reg} (h : step s = .next t) (hi : s.fetch = .trap d a b) :
    t = s.takeTrap := by
  have hexec := exec_of_step_next h
  rw [hi, exec_trap] at hexec
  exact (Host.Outcome.next.inj hexec).symm

/-- A step possible at all began running, and only `trap` changes that (R172). -/
theorem step_status_of_not_trap {s t : State} (h : step s = .next t) (hi : ∀ d a b, s.fetch ≠ .trap d a b) :
    t.status = .running :=
  (exec_status (exec_of_step_next h) hi).trans (running_of_step_next h)

/-- The run ends when, and only when, a `trap` has executed (R173). -/
theorem step_ended_iff {s t : State} (h : step s = .next t) :
    t.status = .ended ↔ ∃ d a b, s.fetch = .trap d a b := by
  constructor
  · intro hended
    by_contra! hnot
    have hrunning := step_status_of_not_trap h hnot
    rw [hended] at hrunning
    cases hrunning
  · rintro ⟨d, a, b, hi⟩
    rw [step_of_fetch_trap h hi, takeTrap_status]

/-! ## The states no step leads on from -/

/-- No step leaves a state that is not running (R172). -/
theorem step_ne_next_of_not_running {s : State} (hs : s.status ≠ .running) (t : State) : step s ≠ .next t :=
  fun h => hs (running_of_step_next h)

theorem recordFault_of_faulted {s : State} {f : Fault} (h : s.status = .faulted f) : s.recordFault f = s := by
  rw [State.recordFault, ← h]
  rfl

/-- A state that is not running is reported as it is: after the end no step is possible, and a fault answers
itself again (R172). -/
theorem reported_of_not_running {s : State} (hs : s.status ≠ .running) : s.reported = s := by
  cases h : s.status with
  | running => exact absurd h hs
  | ended => rw [State.reported, step_ended h]
  | faulted f =>
    rw [State.reported, step_faulted h]
    exact recordFault_of_faulted h

/-! ## The statements -/

/-- Settles O16: `step_ended_iff` and `step_status_of_not_trap` for a completed step, what is reported for the
rest. -/
theorem runStatusChanges : Obligations.RunStatusChanges := by
  refine ⟨launch_status _ _, fun _ _ => running_of_step_next,
    fun s t h => ⟨(step_ended_iff h).mpr, step_status_of_not_trap h⟩, fun s f h => ?_,
    fun _ => reported_of_not_running⟩
  rw [reported_of_step_fault h, setStatus_status]

/-- Settles O17: an ended state came from a `trap`, so that it is the trap entry's state, and no step leaves
it. -/
theorem runEndsExactlyAtTrap : Obligations.RunEndsExactlyAtTrap := by
  intro s t h
  refine ⟨(step_ended_iff h).symm, fun hended => ?_⟩
  obtain ⟨d, a, b, hi⟩ := (step_ended_iff h).mp hended
  obtain rfl := step_of_fetch_trap h hi
  exact ⟨takeTrap_regs s, takeTrap_mem s, takeTrap_pc s, step_ne_next_of_not_running (by rw [hended]; decide)⟩

end Sys2Proof.Machine
end

section
/-! PROOF. The round trip between instructions and words (R72, R76, R77), and the statements about the
decoder's two tables (R68 to R71) and about the printed form (R79). -/

namespace Sys2Proof.Machine

/-! ## Decoding what the encoder writes -/

/-- What `decode` can have read: one word that needs no displacement, or two words (R60, R63). -/
theorem decode_ok_cases {ws rest : List Word} {i : Instr} (h : decode ws = .ok i rest) :
    (∃ w1, needsDisplacement w1 = false ∧ ws = w1 :: rest ∧ i = decodeWord w1 0x0000#16) ∨
    (∃ w1 w2, needsDisplacement w1 = true ∧ ws = w1 :: w2 :: rest ∧ i = decodeWord w1 w2) := by
  cases ws with
  | nil => cases h
  | cons w1 tail =>
    cases hw : needsDisplacement w1 with
    | false =>
      rw [decode_one hw] at h
      obtain ⟨rfl, rfl⟩ := DecodeResult.ok.inj h
      exact .inl ⟨w1, hw, rfl, rfl⟩
    | true =>
      cases tail with
      | nil => simp [decode, hw] at h
      | cons w2 tail =>
        rw [decode_two, if_pos hw] at h
        obtain ⟨rfl, rfl⟩ := DecodeResult.ok.inj h
        exact .inr ⟨w1, w2, hw, rfl, rfl⟩

/-- What decodes still decodes when more words follow it. -/
theorem decode_append {ws left : List Word} {i : Instr} (h : decode ws = .ok i left) (rest : List Word) :
    decode (ws ++ rest) = .ok i (left ++ rest) := by
  obtain ⟨w1, hw, rfl, rfl⟩ | ⟨w1, w2, hw, rfl, rfl⟩ := decode_ok_cases h
  · exact decode_one hw _
  · exact (decode_two w1 w2 _).trans (if_pos hw)

theorem decodesFromRrr_cmpgt (d a b : Reg) : DecodesFromRrr 0x6 d a b (.cmpgt d a b) :=
  decodesFromRrr_of_row (by decide) (fun w h => by simp [decodeWord, h]) d a b

/-- A word of an undefined pattern decodes alone (R70, R71). -/
theorem decode_of_no_row {w1 : Word} (hop : opField w1 = 15) (hb : 7 ≤ bCode w1) :
    decode [w1] = .ok (decodeRx w1 0x0000#16) [] := by
  rw [decode_one (needsDisplacement_of_no_row (by omega)), decodeWord_rx hop]

/-- The words of a well-formed instruction decode to it (R72, R76, R77). -/
theorem decode_encode {i : Instr} (hwf : i.wf = true) : decode (encode i) = .ok i [] := by
  cases i with
  | add d a b => exact decodesFromRrr_add d a b
  | sub d a b => exact decodesFromRrr_sub d a b
  | mul d a b => exact decodesFromRrr_mul d a b
  | div d a b => exact decodesFromRrr_div d a b
  | cmplt d a b => exact decodesFromRrr_cmplt d a b
  | cmpeq d a b => exact decodesFromRrr_cmpeq d a b
  | cmpgt d a b => exact decodesFromRrr_cmpgt d a b
  | inv d a b => exact decodesFromRrr_inv d a b
  | and d a b => exact decodesFromRrr_and d a b
  | or d a b => exact decodesFromRrr_or d a b
  | xor d a b => exact decodesFromRrr_xor d a b
  | shiftl d a b => exact decodesFromRrr_shiftl d a b
  | shiftr d a b => exact decodesFromRrr_shiftr d a b
  | trap d a b => exact decodesFromRrr_trap d a b
  | lea d disp a => exact decodesFromRx_lea d a disp
  | load d disp a => exact decodesFromRx_load d a disp
  | store d disp a => exact decodesFromRx_store d a disp
  | jump d disp a => exact decodesFromRx_jump d a disp
  | jumpf d disp a => exact decodesFromRx_jumpf d a disp
  | jumpt d disp a => exact decodesFromRx_jumpt d a disp
  | jal d disp a => exact decodesFromRx_jal d a disp
  | illegalXX w1 =>
    have hop : opField w1 = 14 := by simpa [Instr.wf, opField_eq] using hwf
    rw [encode, decode_of_op_ne (by omega), decodeWord_xx hop]
  | illegalRxB7 w1 =>
    obtain ⟨hop, hb⟩ : opField w1 = 15 ∧ bCode w1 = 7 := by simpa [Instr.wf, opField_eq, bCode_eq] using hwf
    rw [encode, decode_of_no_row hop hb.ge, decodeRx_b7 hb]
  | illegalRxB8to15 w1 =>
    obtain ⟨hop, hb⟩ : opField w1 = 15 ∧ 8 ≤ bCode w1 := by simpa [Instr.wf, opField_eq, bCode_eq] using hwf
    rw [encode, decode_of_no_row hop (by omega), decodeRx_b8to15 hb]

/-- No two well-formed instructions have the same words. -/
theorem encode_inj {i j : Instr} (hi : i.wf = true) (hj : j.wf = true) (h : encode i = encode j) : i = j := by
  have hdecode := decode_encode hi
  rw [h, decode_encode hj] at hdecode
  exact (DecodeResult.ok.inj hdecode).1.symm

/-! ## Encoding what the decoder answers -/

theorem opField_lt (w : Word) : opField w < 16 := by
  have := w.isLt
  rw [opField_eq]; omega

theorem bCode_lt (w : Word) : bCode w < 16 := by
  rw [bCode_eq]; omega

/-- A word of an RRR or XX row is written back from its fields (R61, R76). -/
theorem encode_decodeWord_of_op_ne {w : Word} (h : opField w ≠ 15) (disp : Word) :
    encode (decodeWord w disp) = [w] := by
  have hlt := opField_lt w
  obtain hop | hop : opField w = 14 ∨ opField w ≤ 13 := by omega
  · rw [decodeWord_xx hop, encode]
  · have hw := rrrWord_of_fields w
    unfold decodeWord
    generalize opField w = op at hop hw
    interval_cases op <;> exact congrArg (fun v => [v]) hw

/-- The words of an RX row are written back from the fields of the first word and the displacement (R77). -/
theorem encode_decodeRx_of_row {w : Word} (hop : opField w = 15) (hb : bCode w ≤ 6) (disp : Word) :
    encode (decodeRx w disp) = [w, disp] := by
  have hw : rxWords (bCode w) (dField w) (aField w) disp = [w, disp] := by
    have hfields := rxWords_eq (bField w) (dField w) (aField w) disp
    rwa [bField_val, ← bCode_eq, ← hop, rrrWord_of_fields] at hfields
  unfold decodeRx
  generalize bCode w = b at hb hw
  interval_cases b <;> exact hw

theorem encode_decodeRx_of_no_row {w : Word} (hb : ¬ bCode w ≤ 6) (disp : Word) :
    encode (decodeRx w disp) = [w] := by
  rcases Nat.eq_or_lt_of_le (Nat.lt_of_not_le hb) with h7 | h8
  · rw [decodeRx_b7 h7.symm, encode]
  · rw [decodeRx_b8to15 h8, encode]

/-- The encoder writes back what the decoder has read: two words where the first needs a displacement. -/
theorem encode_decodeWord (w disp : Word) :
    encode (decodeWord w disp) = if needsDisplacement w then [w, disp] else [w] := by
  by_cases hop : opField w = 15
  · rw [decodeWord_rx hop]
    by_cases hb : bCode w ≤ 6
    · rw [if_pos (needsDisplacement_of_row hop hb), encode_decodeRx_of_row hop hb]
    · rw [needsDisplacement_of_no_row hb, encode_decodeRx_of_no_row hb]
      rfl
  · rw [needsDisplacement_of_op_ne hop, encode_decodeWord_of_op_ne hop]
    rfl

/-- An instruction is written in as many words as it occupies (R60, R63). -/
theorem encode_length (i : Instr) : (encode i).length = i.words := by
  cases i <;> rfl

/-! ## Which words stand for an instruction -/

/-- Everything a first word can decode to: an instruction of one of the two tables, or the undefined form of
its own pattern (R68 to R71). -/
theorem decodeWord_cases (w disp : Word) :
    ((opField w ≤ 13 ∨ opField w = 15 ∧ bCode w ≤ 6) ∧ isIllegal (decodeWord w disp) = false) ∨
    (opField w = 14 ∧ decodeWord w disp = .illegalXX w) ∨
    (opField w = 15 ∧ bCode w = 7 ∧ decodeWord w disp = .illegalRxB7 w) ∨
    (opField w = 15 ∧ 8 ≤ bCode w ∧ decodeWord w disp = .illegalRxB8to15 w) := by
  have hlt := opField_lt w
  obtain hop | hop | hop : opField w ≤ 13 ∨ opField w = 14 ∨ opField w = 15 := by omega
  · exact .inl ⟨.inl hop, (decodeWord_of_op_le hop disp).2⟩
  · exact .inr (.inl ⟨hop, decodeWord_xx hop disp⟩)
  · rw [decodeWord_rx hop]
    obtain hb | hb | hb : bCode w ≤ 6 ∨ bCode w = 7 ∨ 8 ≤ bCode w := by omega
    · exact .inl ⟨.inr ⟨hop, hb⟩, (decodeRx_of_row hb disp).2⟩
    · exact .inr (.inr (.inl ⟨hop, hb, decodeRx_b7 hb disp⟩))
    · exact .inr (.inr (.inr ⟨hop, hb, decodeRx_b8to15 hb disp⟩))

/-- The terms of the two tables have nothing to check (R62, R73). -/
theorem wf_of_legal {i : Instr} (h : isIllegal i = false) : i.wf = true := by
  cases i with
  | illegalXX w1 | illegalRxB7 w1 | illegalRxB8to15 w1 => cases h
  | _ => rfl

theorem decodeWord_wf (w disp : Word) : (decodeWord w disp).wf = true := by
  obtain ⟨-, hlegal⟩ | ⟨hop, hi⟩ | ⟨hop, hb, hi⟩ | ⟨hop, hb, hi⟩ := decodeWord_cases w disp
  · exact wf_of_legal hlegal
  · simp [hi, Instr.wf, ← opField_eq, hop]
  all_goals simp [hi, Instr.wf, ← opField_eq, ← bCode_eq, hop, hb]

/-- The first word alone decides whether it stands for an instruction (R70, R71). -/
theorem isIllegal_decodeWord_iff (w disp : Word) :
    isIllegal (decodeWord w disp) = true ↔ opField w = 14 ∨ (opField w = 15 ∧ 7 ≤ bCode w) := by
  obtain ⟨hrow, hi⟩ | ⟨hop, hi⟩ | ⟨hop, hb, hi⟩ | ⟨hop, hb, hi⟩ := decodeWord_cases w disp
  · rw [hi]
    exact iff_of_false (by decide) (by omega)
  all_goals
    rw [hi]
    exact iff_of_true rfl (by omega)

/-! ## The printed form -/

theorem asListed_of_ne_jump {i : Instr} (h : ∀ d disp a, i ≠ .jump d disp a) : asListed i = i := by
  cases i with
  | jump d disp a => exact absurd rfl (h d disp a)
  | _ => rfl

/-- What is assembled from the printed form prints the same (R79). -/
theorem disassemble_asListed (i : Instr) : disassemble (asListed i) = disassemble i := by
  cases i <;> rfl

/-- Assembling drops a nonzero d field of `jump` and nothing else (R77, R79). -/
theorem assemble_eq_encode_iff (i : Instr) :
    assemble i = encode i ↔ ∀ d disp a, i = .jump d disp a → d = 0 := by
  by_cases hjump : ∃ d disp a, i = .jump d disp a
  · obtain ⟨d, disp, a, rfl⟩ := hjump
    constructor
    · intro h d' disp' a' hi
      cases hi
      have hj : Instr.jump 0 disp a = .jump d disp a := encode_inj rfl rfl h
      exact (Instr.jump.inj hj).1.symm
    · intro h
      rw [h d disp a rfl]
      rfl
  · push Not at hjump
    rw [assemble, asListed_of_ne_jump hjump]
    exact iff_of_true rfl fun d disp a hi => absurd hi (hjump d disp a)

theorem rrrText_eq (mn : String) (d a b : Reg) :
    rrrText mn d a b = mn ++ " " ++ (regText d ++ "," ++ regText a ++ "," ++ regText b) := by
  simp [rrrText, String.append_assoc]

theorem rxText_eq (mn : String) (d : Reg) (disp : Word) (a : Reg) :
    rxText mn d disp a = mn ++ " " ++ (regText d ++ "," ++ indexedText disp a) := by
  simp [rxText, String.append_assoc]

/-- A printed form begins with the mnemonic and a space (R75); an undefined word has none. -/
theorem disassemble_begins {i : Instr} {text : String} (h : disassemble i = some text) :
    ∃ body, text = mnemonicOf i ++ " " ++ body := by
  cases i with
  | illegalXX w1 | illegalRxB7 w1 | illegalRxB8to15 w1 => cases h
  | jump d disp a => exact ⟨_, (Option.some.inj h).symm⟩
  | lea d disp a | load d disp a | store d disp a | jumpf d disp a | jumpt d disp a | jal d disp a =>
    exact ⟨_, (Option.some.inj h).symm.trans (rxText_eq _ _ _ _)⟩
  | _ => exact ⟨_, (Option.some.inj h).symm.trans (rrrText_eq _ _ _ _)⟩

theorem disassemble_of_legal {i : Instr} (h : isIllegal i = false) : ∃ text, disassemble i = some text := by
  cases i with
  | illegalXX w1 | illegalRxB7 w1 | illegalRxB8to15 w1 => cases h
  | _ => exact ⟨_, rfl⟩

/-- Instructions that print alike have one mnemonic, since no mnemonic holds a space. -/
theorem mnemonicOf_eq_of_disassemble_eq {i j : Instr} (hi : isIllegal i = false)
    (h : disassemble i = disassemble j) : mnemonicOf i = mnemonicOf j := by
  obtain ⟨text, htext⟩ := disassemble_of_legal hi
  obtain ⟨body, rfl⟩ := disassemble_begins htext
  obtain ⟨body', hbody⟩ := disassemble_begins (h ▸ htext)
  exact (text_after_space_inj (space_not_in_mnemonicOf i) (space_not_in_mnemonicOf j) hbody).1

/-- One mnemonic means one row of the tables, and the text of a row's operands gives back the operands. -/
theorem asListed_eq_of_disassemble_eq {i j : Instr} (hi : isIllegal i = false)
    (h : disassemble i = disassemble j) : asListed i = asListed j := by
  have hmn := mnemonicOf_eq_of_disassemble_eq hi h
  cases i with
  | illegalXX w1 | illegalRxB7 w1 | illegalRxB8to15 w1 => cases hi
  | jump d disp a =>
    cases j <;> simp [mnemonicOf] at hmn
    have hbody := text_after_space_inj (space_not_in_mnemonicOf _) (space_not_in_mnemonicOf _) (Option.some.inj h)
    obtain ⟨rfl, rfl⟩ := indexedText_inj hbody.2
    rfl
  | lea d disp a | load d disp a | store d disp a | jumpf d disp a | jumpt d disp a | jal d disp a =>
    cases j <;> simp [mnemonicOf] at hmn
    obtain ⟨rfl, rfl, rfl⟩ := rxText_inj (Option.some.inj h)
    rfl
  | _ =>
    cases j <;> simp [mnemonicOf] at hmn
    obtain ⟨rfl, rfl, rfl⟩ := rrrText_inj (Option.some.inj h)
    rfl

/-! ## The statements -/

/-- Settles O1: the twelve words are evaluated. -/
theorem knownWordsDecode : Obligations.KnownWordsDecode := by
  unfold Obligations.KnownWordsDecode
  decide

/-- Settles O2: `decode_encode`, with more words after. -/
theorem decodeOfEncode : Obligations.DecodeOfEncode :=
  fun _ rest hwf => decode_append (decode_encode hwf) rest

/-- Settles O3, by whether the first word needs a displacement: the decoder has read two words or one. -/
theorem encodeOfDecode : Obligations.EncodeOfDecode := by
  intro ws rest i h
  obtain ⟨w1, hw, rfl, rfl⟩ | ⟨w1, w2, hw, rfl, rfl⟩ := decode_ok_cases h
  all_goals
    refine ⟨decodeWord_wf w1 _, ?_, encode_length _⟩
    rw [encode_decodeWord, hw]
    rfl

/-- Settles O5: `isIllegal_decodeWord_iff`, with the two fields as quotient and remainder. -/
theorem undefinedWordsExactly : Obligations.UndefinedWordsExactly := by
  intro w1 disp
  rw [← opField_eq, ← bCode_eq]
  exact isIllegal_decodeWord_iff w1 disp

/-- Settles O6: row by row of the two tables. -/
theorem opcodeMapMnemonics : Obligations.OpcodeMapMnemonics := by
  intro w1 disp
  rw [← opField_eq, ← bCode_eq]
  refine ⟨fun hop => ?_, fun hop hb => ?_⟩
  · unfold decodeWord
    generalize opField w1 = op at hop
    interval_cases op <;> rfl
  · rw [decodeWord_rx hop, decodeRx]
    generalize bCode w1 = b at hb
    interval_cases b <;> rfl

/-- Settles O8: only `jump` is assembled from less than it holds, and prints without its d field. -/
theorem printedFormLosesOnlyJumpD : Obligations.PrintedFormLosesOnlyJumpD :=
  ⟨fun i => ⟨disassemble_asListed i, assemble_eq_encode_iff i⟩, fun _ _ => asListed_eq_of_disassemble_eq⟩

end Sys2Proof.Machine
end

section
/-! PROOF. What a completed instruction does to the registers and to memory, said once for every instruction;
the invariant that every step keeps (R22, R23, R35), and the canonical form of memory (R40, R45). -/

namespace Sys2Proof.Machine

/-! ## Registers and memory after a completed instruction -/

/-- A completed instruction changes registers only by writes to the registers of R25's table: what depends on
the registers alone and survives those writes survives the instruction. -/
theorem exec_keeps {P : State → Prop} {i : Instr} {s t : State}
    (hregs : ∀ u v : State, v.regs = u.regs → P u → P v)
    (hwrite : ∀ u : State, ∀ d ∈ regsWritten i, ∀ v, P u → P (u.writeReg d v))
    (hs : P s) (h : exec i s = .next t) : P t := by
  cases i with
  | add d a b | sub d a b | mul d a b | cmplt d a b | cmpeq d a b | cmpgt d a b | shiftl d a b | shiftr d a b
  | lea d disp a | load d disp a =>
    obtain rfl := Host.Outcome.next.inj h
    exact hwrite _ d (by simp [regsWritten]) _ (hregs s _ rfl hs)
  | div d a b =>
    obtain ⟨-, -, rfl⟩ := execDiv_next_iff.mp h
    exact hwrite _ a (by simp [regsWritten]) _ (hwrite _ d (by simp [regsWritten]) _ (hregs s _ rfl hs))
  | jal d disp a =>
    obtain rfl := Host.Outcome.next.inj h
    exact hregs _ _ (setPc_regs _ _) (hwrite _ d (by simp [regsWritten]) _ (hregs s (s.advance 2) rfl hs))
  | inv d a b | and d a b | or d a b | xor d a b | trap d a b | store d disp a | jump d disp a =>
    obtain rfl := Host.Outcome.next.inj h
    exact hregs s _ rfl hs
  | jumpf d disp a | jumpt d disp a =>
    obtain rfl := Host.Outcome.next.inj h
    split <;> exact hregs s _ rfl hs
  | illegalXX w1 | illegalRxB7 w1 | illegalRxB8to15 w1 => cases h

/-- A completed instruction changes no register but those R25's table says it writes. -/
theorem exec_sameRegsBut {i : Instr} {s t : State} (h : exec i s = .next t) :
    SameRegsBut (regsWritten i) s t := by
  refine exec_keeps (P := SameRegsBut (regsWritten i) s) ?_ ?_ (fun _ _ => rfl) h
  · intro u v huv hu r hr
    exact (readReg_congr huv r).trans (hu r hr)
  · intro u d hd v hu r hr
    exact (readReg_writeReg_of_ne u v (ne_of_mem_of_not_mem hd hr).symm).trans (hu r hr)

/-- A hardwired register 0 that holds 0x0000 holds it after every completed instruction (R23). -/
theorem exec_keeps_hardwired {i : Instr} {s t : State} (h : exec i s = .next t)
    (hs : Config.r0HardwiredZero = true → s.regs[0] = 0x0000#16) :
    Config.r0HardwiredZero = true → t.regs[0] = 0x0000#16 := by
  refine exec_keeps (P := fun u => Config.r0HardwiredZero = true → u.regs[0] = 0x0000#16) ?_ ?_ hs h
  · intro u v huv hu
    rwa [huv]
  · intro u d _ v hu
    exact writeReg_keeps_hardwired u d v hu

/-- Only `store` changes memory (R32). -/
theorem exec_mem {i : Instr} {s t : State} (h : exec i s = .next t) (hi : ∀ d disp a, i ≠ .store d disp a) :
    t.mem = s.mem := by
  cases i with
  | add d a b | sub d a b | mul d a b | cmplt d a b | cmpeq d a b | cmpgt d a b | shiftl d a b | shiftr d a b
  | lea d disp a | load d disp a | jal d disp a =>
    obtain rfl := Host.Outcome.next.inj h
    exact writeReg_mem _ d _
  | div d a b =>
    obtain ⟨-, -, rfl⟩ := execDiv_next_iff.mp h
    simp
  | inv d a b | and d a b | or d a b | xor d a b | trap d a b | jump d disp a =>
    obtain rfl := Host.Outcome.next.inj h
    rfl
  | jumpf d disp a | jumpt d disp a =>
    obtain rfl := Host.Outcome.next.inj h
    split <;> rfl
  | store d disp a => exact absurd rfl (hi d disp a)
  | illegalXX w1 | illegalRxB7 w1 | illegalRxB8to15 w1 => cases h

/-- Only `store` writes memory, and its write keeps the canonical form (R32, R143). -/
theorem exec_keeps_wf {i : Instr} {s t : State} (h : exec i s = .next t) (hs : s.mem.wf) : t.mem.wf := by
  by_cases hstore : ∃ d disp a, i = .store d disp a
  · obtain ⟨d, disp, a, rfl⟩ := hstore
    rw [exec_store] at h
    obtain rfl := Host.Outcome.next.inj h
    exact memWrite_wf (s.advance 2) _ _ hs
  · push Not at hstore
    rwa [exec_mem h hstore]

/-! ## The canonical form -/

theorem Memory.read_of_not_listed {m : Memory} {a : Nat} (h : ∀ c ∈ m, c.1 ≠ a) :
    m.read a = Config.unlistedWord := by
  induction m with
  | nil => rfl
  | cons c m ih =>
    rw [Memory.read, if_neg (h c List.mem_cons_self)]
    exact ih fun e he => h e (List.mem_cons_of_mem c he)

/-- A canonical memory lists exactly the words that do not read as an unlisted word does. -/
theorem Memory.mem_iff_read {m : Memory} (h : m.wf) (c : Cell) :
    c ∈ m ↔ m.read c.1 = c.2 ∧ c.2 ≠ Config.unlistedWord := by
  obtain ⟨hrising, hlisted⟩ := h
  induction m with
  | nil => simpa [Memory.read] using fun h => h.symm
  | cons e m ih =>
    obtain ⟨hlt, hrising⟩ := List.pairwise_cons.mp hrising
    have hlisted' : ∀ c ∈ m, c.1 < 65536 ∧ c.2 ≠ Config.unlistedWord :=
      fun c hc => hlisted c (List.mem_cons_of_mem e hc)
    by_cases hc : e.1 = c.1
    · have hnot : c ∉ m := fun hm => absurd hc (hlt c hm).ne
      rw [Memory.read, if_pos hc, List.mem_cons, or_iff_left hnot]
      constructor
      · rintro rfl
        exact ⟨rfl, (hlisted c List.mem_cons_self).2⟩
      · rintro ⟨hword, -⟩
        exact (Prod.ext hc hword).symm
    · rw [Memory.read, if_neg hc, ← ih hrising hlisted', List.mem_cons,
        or_iff_right fun hce : c = e => hc (congrArg Prod.fst hce.symm)]

theorem Memory.subset_of_read_eq {m m' : Memory} (h : m.wf) (h' : m'.wf)
    (hread : ∀ a < 65536, m.read a = m'.read a) : m ⊆ m' := by
  intro c hc
  obtain ⟨hword, hlisted⟩ := (Memory.mem_iff_read h c).mp hc
  exact (Memory.mem_iff_read h' c).mpr ⟨(hread c.1 (h.2 c hc).1).symm.trans hword, hlisted⟩

/-! ## The reset state -/

theorem reset_regs_getElem (r : Reg) : State.reset.regs[r] = 0x0000#16 := by
  simp [State.reset, State.launch, Config.initialRegs]

/-! ## The statements -/

/-- Settles O18: the memory half by `exec_keeps_wf`, the register half by `exec_keeps_hardwired`. -/
theorem stepKeepsInvariant : Obligations.StepKeepsInvariant := by
  rintro s t ⟨hwf, hzero⟩ h
  have hexec := exec_of_step_next h
  exact ⟨exec_keeps_wf hexec hwf, exec_keeps_hardwired hexec hzero⟩

/-- Settles O13: `exec_mem` for the fetched instruction. -/
theorem onlyStoreChangesMemory : Obligations.OnlyStoreChangesMemory :=
  fun _ _ h hi => memRead_congr (exec_mem (exec_of_step_next h) hi)

/-- Settles O23: each memory lists what the other lists, and both by rising address. -/
theorem equalReadsEqualMemories : Obligations.EqualReadsEqualMemories := by
  intro m m' h h' hread
  have : Std.Irrefl (fun c e : Cell => c.1 < e.1) := ⟨fun c => lt_irrefl c.1⟩
  have : Std.Antisymm (fun c e : Cell => c.1 < e.1) := ⟨fun _ _ hlt hgt => absurd hgt hlt.asymm⟩
  exact List.Subset.antisymm_of_pairwise h.1 h'.1 (Memory.subset_of_read_eq h h' hread)
    (Memory.subset_of_read_eq h' h fun a ha => (hread a ha).symm)

/-- Settles O19: an empty memory is canonical, and every register holds 0x0000. -/
theorem resetHasInvariant : Obligations.ResetHasInvariant :=
  ⟨Memory.wf_nil, fun _ => reset_regs_getElem 0⟩

/-- Settles O21: all registers hold 0x0000, and the memory lists nothing. -/
theorem resetRegistersAndMemoryReadZero : Obligations.ResetRegistersAndMemoryReadZero := by
  refine ⟨fun r => ?_, fun _ => rfl⟩
  rw [readReg_eq, reset_regs_getElem, ite_self]

end Sys2Proof.Machine
end

section
/-! PROOF. What an instruction does depends on no register but those it reads (R25): two states that agree on
those give outcomes that agree on the registers it writes. -/

namespace Sys2Proof.Machine

/-! ## States that agree -/

section
variable {rs : List Reg} {s s' : State}

theorem agreeOn_subset {rs' : List Reg} (h : AgreeOn rs s s') (hsub : rs' ⊆ rs) : AgreeOn rs' s s' := by
  obtain ⟨hpc, hstatus, hmem, hregs⟩ := h
  exact ⟨hpc, hstatus, hmem, fun r hr => hregs r (hsub hr)⟩

/-- No register of the list needs to agree where the list is empty. -/
theorem agreeOn_nil (h : AgreeOn rs s s') : AgreeOn [] s s' :=
  agreeOn_subset h (List.nil_subset rs)

theorem agreeOn_setPc (h : AgreeOn rs s s') (v : Word) : AgreeOn rs (s.setPc v) (s'.setPc v) := by
  obtain ⟨-, hstatus, hmem, hregs⟩ := h
  exact ⟨rfl, hstatus, hmem, hregs⟩

theorem agreeOn_advance (h : AgreeOn rs s s') (n : Nat) : AgreeOn rs (s.advance n) (s'.advance n) := by
  obtain ⟨hpc, hstatus, hmem, hregs⟩ := h
  exact ⟨by rw [advance_pc, advance_pc, hpc], hstatus, hmem, hregs⟩

theorem agreeOn_takeTrap (h : AgreeOn rs s s') : AgreeOn rs s.takeTrap s'.takeTrap := by
  obtain ⟨-, -, hmem, hregs⟩ := h
  exact ⟨rfl, rfl, hmem, hregs⟩

theorem agreeOn_memWrite (h : AgreeOn rs s s') (x v : Word) :
    AgreeOn rs (s.memWrite x v) (s'.memWrite x v) := by
  obtain ⟨hpc, hstatus, hmem, hregs⟩ := h
  refine ⟨hpc, hstatus, fun y => ?_, hregs⟩
  by_cases hy : y = x
  · rw [hy, memRead_memWrite_same, memRead_memWrite_same]
  · rw [memRead_memWrite_of_ne _ _ hy, memRead_memWrite_of_ne _ _ hy, hmem y]

/-- After the same write the register written agrees too. -/
theorem agreeOn_writeReg (h : AgreeOn rs s s') (d : Reg) (v : Word) :
    AgreeOn (d :: rs) (s.writeReg d v) (s'.writeReg d v) := by
  obtain ⟨hpc, hstatus, hmem, hregs⟩ := h
  refine ⟨by simpa using hpc, by simpa using hstatus, fun y => by simpa using hmem y, fun r hr => ?_⟩
  by_cases hrd : r = d
  · rw [hrd, readReg_writeReg_same, readReg_writeReg_same]
  · rw [readReg_writeReg_of_ne _ _ hrd, readReg_writeReg_of_ne _ _ hrd,
      hregs r (List.mem_of_ne_of_mem hrd hr)]

/-- An instruction whose only effect on the registers is one write after its advance agrees on that register. -/
theorem agreeOn_advance_writeReg (h : AgreeOn rs s s') (n : Nat) (d : Reg) {v v' : Word} (hv : v' = v) :
    AgreeOn [d] ((s.advance n).writeReg d v) ((s'.advance n).writeReg d v') :=
  hv ▸ agreeOn_writeReg (agreeOn_nil (agreeOn_advance h n)) d v

theorem pc_of_agreeOn (h : AgreeOn rs s s') : s'.pc = s.pc := by
  obtain ⟨hpc, -⟩ := h
  exact hpc

theorem readReg_of_agreeOn (h : AgreeOn rs s s') {r : Reg} (hr : r ∈ rs) : s'.readReg r = s.readReg r := by
  obtain ⟨-, -, -, hregs⟩ := h
  exact hregs r hr

theorem memRead_of_agreeOn (h : AgreeOn rs s s') (addr : Word) : s'.memRead addr = s.memRead addr := by
  obtain ⟨-, -, hmem, -⟩ := h
  exact hmem addr

theorem effectiveAddress_of_agreeOn (h : AgreeOn rs s s') {a : Reg} (ha : a ∈ rs) (disp : Word) :
    s'.effectiveAddress disp a = s.effectiveAddress disp a := by
  rw [State.effectiveAddress, State.effectiveAddress, readReg_of_agreeOn h ha]

end

/-! ## Outcomes that agree -/

/-- Two next states that agree, or one and the same way to stop. -/
def OutcomesAgree (rs : List Reg) : Result → Result → Prop
  | .next t, .next t' => AgreeOn rs t t'
  | .fault f, .fault f' => f' = f
  | .refused r, .refused r' => r' = r
  | _, _ => False

theorem outcomesAgree_next {rs : List Reg} {t : State} {o' : Result} (h : OutcomesAgree rs (.next t) o') :
    ∃ t', o' = .next t' ∧ AgreeOn rs t t' := by
  cases o' with
  | next t' => exact ⟨t', rfl, h⟩
  | fault f | refused r => cases h

theorem outcomesAgree_fault {rs : List Reg} {f : Fault} {o' : Result} (h : OutcomesAgree rs (.fault f) o') :
    o' = .fault f := by
  cases o' with
  | fault f' => exact congrArg _ h
  | next t | refused r => cases h

theorem outcomesAgree_rrrWrite {s s' : State} {d a b : Reg} (h : AgreeOn [a, b] s s')
    (f : Word → Word → Word) : OutcomesAgree [d] (rrrWrite f d a b s) (rrrWrite f d a b s') :=
  agreeOn_advance_writeReg h 1 d (by
    rw [readReg_of_agreeOn h (r := a) (by simp), readReg_of_agreeOn h (r := b) (by simp)])

theorem outcomesAgree_shiftBy {s s' : State} {d a b : Reg} (h : AgreeOn [d, a, b] s s')
    (f : Config.ShiftFn) : OutcomesAgree [d] (shiftBy (some f) d a b s) (shiftBy (some f) d a b s') :=
  agreeOn_advance_writeReg h 1 d (by
    rw [readReg_of_agreeOn h (r := d) (by simp), readReg_of_agreeOn h (r := a) (by simp),
      readReg_of_agreeOn h (r := b) (by simp)])

/-- `div` writes d and then a, and stops in the same fault (R103, R108). -/
theorem outcomesAgree_execDiv {s s' : State} {d a b : Reg} (h : AgreeOn [a, b] s s') :
    OutcomesAgree [d, a] (execDiv d a b s) (execDiv d a b s') := by
  have hb : s'.readReg b = s.readReg b := readReg_of_agreeOn h (by simp)
  have ha : s'.readReg a = s.readReg a := readReg_of_agreeOn h (by simp)
  have hpc := pc_of_agreeOn h
  by_cases hda : d = a
  · subst hda
    rw [execDiv_overlap, execDiv_overlap, hpc]
    rfl
  · by_cases hzero : s.readReg b = 0x0000#16
    · rw [execDiv_zero hda hzero, execDiv_zero hda (hb.trans hzero), hpc]
      rfl
    · rw [execDiv_next_iff.mpr ⟨hda, hzero, rfl⟩, execDiv_next_iff.mpr ⟨hda, hb ▸ hzero, rfl⟩, ha, hb]
      exact agreeOn_subset (agreeOn_writeReg (agreeOn_advance_writeReg h 1 d rfl) a _) (by simp)

/-- What an instruction does depends on no register but those R25's table says it reads. -/
theorem outcomesAgree_exec {i : Instr} {s s' : State} (h : AgreeOn (regsRead i) s s') :
    OutcomesAgree (regsWritten i) (exec i s) (exec i s') := by
  cases i with
  | add d a b | sub d a b | mul d a b | cmplt d a b | cmpeq d a b | cmpgt d a b =>
    dsimp only [exec]
    exact outcomesAgree_rrrWrite h _
  | div d a b => exact outcomesAgree_execDiv h
  | inv d a b | and d a b | or d a b | xor d a b => exact agreeOn_advance h 1
  | shiftl d a b | shiftr d a b => exact outcomesAgree_shiftBy h _
  | trap d a b => exact agreeOn_takeTrap h
  | lea d disp a =>
    exact agreeOn_advance_writeReg h 2 d (effectiveAddress_of_agreeOn h List.mem_cons_self disp)
  | load d disp a =>
    have hea := effectiveAddress_of_agreeOn h List.mem_cons_self disp
    exact agreeOn_advance_writeReg h 2 d (hea ▸ memRead_of_agreeOn h _)
  | store d disp a =>
    rw [exec_store, exec_store, readReg_of_agreeOn h List.mem_cons_self,
      effectiveAddress_of_agreeOn h (a := a) (by simp [regsRead])]
    exact agreeOn_memWrite (agreeOn_nil (agreeOn_advance h 2)) _ _
  | jump d disp a =>
    rw [exec_jump, exec_jump, effectiveAddress_of_agreeOn h List.mem_cons_self]
    exact agreeOn_setPc (agreeOn_nil h) _
  | jumpf d disp a =>
    rw [exec_jumpf, exec_jumpf, readReg_of_agreeOn h List.mem_cons_self,
      effectiveAddress_of_agreeOn h (a := a) (by simp [regsRead])]
    split
    · exact agreeOn_setPc (agreeOn_nil h) _
    · exact agreeOn_advance (agreeOn_nil h) 2
  | jumpt d disp a =>
    rw [exec_jumpt, exec_jumpt, readReg_of_agreeOn h List.mem_cons_self,
      effectiveAddress_of_agreeOn h (a := a) (by simp [regsRead])]
    split
    · exact agreeOn_advance (agreeOn_nil h) 2
    · exact agreeOn_setPc (agreeOn_nil h) _
  | jal d disp a =>
    rw [exec_jal, exec_jal, pc_of_agreeOn (agreeOn_advance h 2), effectiveAddress_of_agreeOn h List.mem_cons_self]
    exact agreeOn_setPc (agreeOn_advance_writeReg h 2 d rfl) _
  | illegalXX w1 | illegalRxB7 w1 | illegalRxB8to15 w1 =>
    exact congrArg (Fault.illegalInstruction · w1) (pc_of_agreeOn h)

/-! ## The statement -/

/-- Settles O12: the registers written by `exec_sameRegsBut`, the registers read by `outcomesAgree_exec`. -/
theorem registerUseTable : Obligations.RegisterUseTable := by
  refine ⟨fun _ _ _ => exec_sameRegsBut, fun i s s' h => ?_⟩
  have hagree := outcomesAgree_exec h
  refine ⟨fun t ht => ?_, fun f hf => ?_⟩
  · exact outcomesAgree_next (ht ▸ hagree)
  · exact outcomesAgree_fault (hf ▸ hagree)

end Sys2Proof.Machine
end

section
/-! PROOF. When a running step completes and how it stops otherwise (R8, R161, R164), what is reported of a
fault (R162), and the statements about a word placed or stored where the next step fetches (R54, R57). -/

namespace Sys2Proof.Machine

/-! ## How a running step can end -/

/-- Every instruction of the two tables but `div` completes in every state. -/
theorem exec_completes {i : Instr} (hlegal : isIllegal i = false) (hdiv : ∀ d a b, i ≠ .div d a b) (s : State) :
    ∃ t, exec i s = .next t := by
  cases i with
  | div d a b => exact absurd rfl (hdiv d a b)
  | illegalXX w1 | illegalRxB7 w1 | illegalRxB8to15 w1 => cases hlegal
  | _ => exact ⟨_, rfl⟩

/-- A fetched undefined form comes from an undefined word at `pc` (R70, R71). -/
theorem opField_of_isIllegal_fetch {s : State} (h : isIllegal s.fetch = true) :
    opField (s.memRead s.pc) = 14 ∨ (opField (s.memRead s.pc) = 15 ∧ 7 ≤ bCode (s.memRead s.pc)) := by
  rw [State.fetch] at h
  split at h <;> exact (isIllegal_decodeWord_iff _ _).mp h

/-- A fetched undefined form faults with the word at `pc` (R131, R132). -/
theorem step_of_isIllegal {s : State} (hs : s.status = .running) (h : isIllegal s.fetch = true) :
    step s = .fault (.illegalInstruction s.pc (s.memRead s.pc)) := by
  obtain hop | ⟨hop, hb⟩ := opField_of_isIllegal_fetch h
  · exact step_xx hs hop
  · exact step_rx_of_no_row hs hop hb

/-- The three ways `div` can go, in the order of R103. -/
theorem execDiv_cases (d a b : Reg) (s : State) :
    (d = a ∧ execDiv d a b s = .fault (.unspecifiedDivOverlap s.pc)) ∨
    (d ≠ a ∧ s.readReg b = 0x0000#16 ∧ execDiv d a b s = .fault (.divideByZero s.pc)) ∨
    (d ≠ a ∧ s.readReg b ≠ 0x0000#16 ∧ ∃ t, execDiv d a b s = .next t) := by
  by_cases hda : d = a
  · subst hda
    exact .inl ⟨rfl, execDiv_overlap d b s⟩
  · by_cases hb : s.readReg b = 0x0000#16
    · exact .inr (.inl ⟨hda, hb, execDiv_zero hda hb⟩)
    · exact .inr (.inr ⟨hda, hb, _, execDiv_next_iff.mpr ⟨hda, hb, rfl⟩⟩)

/-- Everything a step of a running machine can do: fault on an undefined word, run `div`, or complete. -/
theorem step_running_cases {s : State} (hs : s.status = .running) :
    (isIllegal s.fetch = true ∧ step s = .fault (.illegalInstruction s.pc (s.memRead s.pc))) ∨
    (∃ d a b, s.fetch = .div d a b ∧ step s = execDiv d a b s) ∨
    (isIllegal s.fetch = false ∧ (∀ d a b, s.fetch ≠ .div d a b) ∧ ∃ t, step s = .next t) := by
  cases hlegal : isIllegal s.fetch with
  | true => exact .inl ⟨rfl, step_of_isIllegal hs hlegal⟩
  | false =>
    by_cases hdiv : ∃ d a b, s.fetch = .div d a b
    · obtain ⟨d, a, b, hi⟩ := hdiv
      refine .inr (.inl ⟨d, a, b, hi, ?_⟩)
      rw [step_running hs, hi, exec]
    · push Not at hdiv
      refine .inr (.inr ⟨rfl, hdiv, ?_⟩)
      rw [step_running hs]
      exact exec_completes hlegal hdiv s

/-- When a running step completes (R8, R164). -/
theorem step_completes_iff {s : State} (hs : s.status = .running) : (∃ t, step s = .next t) ↔
    isIllegal s.fetch = false ∧ ∀ d a b, s.fetch = .div d a b → d ≠ a ∧ s.readReg b ≠ 0x0000#16 := by
  obtain ⟨hi, hstep⟩ | ⟨d, a, b, hi, hstep⟩ | ⟨hlegal, hdiv, hnext⟩ := step_running_cases hs
  · simp [hi, hstep]
  · simp [hi, hstep, execDiv_next_iff, isIllegal]
  · exact iff_of_true hnext ⟨hlegal, fun d a b hi => absurd hi (hdiv d a b)⟩

/-! ## Where the next step fetches -/

theorem ne_add_one (x : Word) : x ≠ x + 1 := by
  simp

@[simp] theorem withFetchWord_pc (s : State) (nbits w : Nat) : (s.withFetchWord nbits w).pc = s.pc := rfl

@[simp] theorem withFetchWord_status (s : State) (nbits w : Nat) :
    (s.withFetchWord nbits w).status = .running := rfl

@[simp] theorem readReg_withFetchWord (s : State) (nbits w : Nat) (r : Reg) :
    (s.withFetchWord nbits w).readReg r = s.readReg r := rfl

theorem memRead_withFetchWord (s : State) (nbits w : Nat) (addr : Word) :
    (s.withFetchWord nbits w).memRead addr =
      if addr = s.pc + 1 then (tableWords nbits w).2
      else if addr = s.pc then (tableWords nbits w).1 else s.memRead addr := by
  rw [State.withFetchWord, memRead_setStatus]
  split
  case isTrue h => rw [h, memRead_memWrite_same]
  case isFalse h =>
    rw [memRead_memWrite_of_ne _ _ h]
    split
    case isTrue h' => rw [h', memRead_memWrite_same]
    case isFalse h' => rw [memRead_memWrite_of_ne _ _ h']

/-- The two words of a table word decode to what `decodeTableWord` answers. -/
theorem decode_of_decodeTableWord {nbits w : Nat} {i : Instr} (h : decodeTableWord nbits w = some i) :
    ∃ rest, decode [(tableWords nbits w).1, (tableWords nbits w).2] = .ok i rest := by
  unfold decodeTableWord at h
  split at h
  case h_1 j rest hdecode =>
    obtain rfl := Option.some.inj h
    exact ⟨rest, hdecode⟩
  case h_2 => cases h

section
variable {d a : Reg} {disp : Word} {s t : State} (h : exec (.store d disp a) s = .next t)
include h

theorem memRead_of_exec_store_same : t.memRead (s.effectiveAddress disp a) = s.readReg d := by
  rw [exec_store] at h
  obtain rfl := Host.Outcome.next.inj h
  exact memRead_memWrite_same _ _ _

theorem memRead_of_exec_store_of_ne {addr : Word} (hne : addr ≠ s.effectiveAddress disp a) :
    t.memRead addr = s.memRead addr := by
  rw [exec_store] at h
  obtain rfl := Host.Outcome.next.inj h
  exact memRead_memWrite_of_ne (s.advance 2) _ hne

end

/-! ## The statements -/

/-- Settles O9: the fetch decodes the two words at `pc`. -/
theorem stepRunsDecodedInstruction : Obligations.StepRunsDecodedInstruction :=
  fun _ _ _ hs h => step_of_decode hs h

/-- Settles O10: `step_pc`, as a number. -/
theorem sequentialAdvance : Obligations.SequentialAdvance := by
  intro s t h hi
  rw [step_pc h hi, ← advance_pc]
  exact (advance_advanced s s.fetch.words).1

/-- Settles O14, by what a running step can do. -/
theorem runningStepCompletesOrFaultsAsListed : Obligations.RunningStepCompletesOrFaultsAsListed := by
  intro s hs
  refine ⟨step_completes_iff hs, ?_⟩
  obtain ⟨hi, hstep⟩ | ⟨d, a, b, hi, hstep⟩ | ⟨-, -, t, hstep⟩ := step_running_cases hs
  · simp [hstep, hi, eq_comm]
  · obtain ⟨hda, h⟩ | ⟨hda, hb, h⟩ | ⟨-, -, t, h⟩ := execDiv_cases d a b s
    all_goals rw [hstep, h]
    · simp [hi, hda]
    · simp [hi, hda, hb]
    · simp
  · simp [hstep]

/-- Settles O15: what is reported is the old state marked faulted, and no step leaves such a state. -/
theorem faultsArePreciseAndTerminal : Obligations.FaultsArePreciseAndTerminal := by
  intro s f h
  have hreported := reported_of_step_fault h
  have hstatus : s.reported.status = .faulted f := by rw [hreported, setStatus_status]
  refine ⟨?_, ?_, ?_, hstatus, step_faulted hstatus, reported_of_not_running (by simp [hstatus])⟩
  all_goals rw [hreported]
  · exact setStatus_pc s _
  · exact setStatus_regs s _
  · exact setStatus_mem s _

/-- Settles O22: the words placed at `pc` and `pc +16 1` are the words fetched there. -/
theorem placedWordRunsNext : Obligations.PlacedWordRunsNext := by
  intro s nbits w i h
  obtain ⟨rest, hdecode⟩ := decode_of_decodeTableWord h
  refine ⟨step_of_decode (withFetchWord_status s nbits w) (rest := rest) ?_, withFetchWord_pc s nbits w,
    fun r _ => readReg_withFetchWord s nbits w r, fun addr hpc hnext => ?_⟩
  · rwa [withFetchWord_pc, memRead_withFetchWord, memRead_withFetchWord, if_neg (ne_add_one s.pc), if_pos rfl,
      if_pos rfl]
  · rw [memRead_withFetchWord, if_neg hnext, if_neg hpc]

/-- Settles O43: the load reads the stored word at the address stored to, and what was there before elsewhere. -/
theorem loadAfterStore : Obligations.LoadAfterStore := by
  intro d a d' a' disp disp' s t u hstore hload
  rw [exec_load] at hload
  obtain rfl := Host.Outcome.next.inj hload
  rw [readReg_writeReg_same]
  refine ⟨fun heq => ?_, fun hne => ?_⟩
  · rw [heq, memRead_of_exec_store_same hstore]
  · rw [memRead_of_exec_store_of_ne hstore hne]

/-- Settles O44: the fetch after a `store` reads the stored word at the one address and the old word at the
other. -/
theorem storeSeenByNextFetch : Obligations.StoreSeenByNextFetch := by
  intro d a disp s t i rest hs hi h
  have hrunning : t.status = .running := step_status_of_not_trap h (by simp [hi])
  have hstore : exec (.store d disp a) s = .next t := hi ▸ exec_of_step_next h
  refine ⟨fun hea hdecode => step_of_decode hrunning (rest := rest) ?_,
    fun hea hdecode => step_of_decode hrunning (rest := rest) ?_⟩
  · have hword : t.memRead t.pc = s.readReg d := hea ▸ memRead_of_exec_store_same hstore
    have hnext : t.memRead (t.pc + 1) = s.memRead (t.pc + 1) :=
      memRead_of_exec_store_of_ne hstore (hea ▸ (ne_add_one t.pc).symm)
    rwa [hword, hnext]
  · have hfirst : t.memRead t.pc = s.memRead t.pc :=
      memRead_of_exec_store_of_ne hstore (hea ▸ ne_add_one t.pc)
    have hword : t.memRead (t.pc + 1) = s.readReg d := hea ▸ memRead_of_exec_store_same hstore
    rwa [hfirst, hword]

end Sys2Proof.Machine
end

section
/-! PROOF. Exactly one of "<", "=", ">" holds (R112), the statements about `cmpgt` and the three comparisons
together, and those about a pair of instructions on the same operands: the two shifts (R124, R125), the two
conditional jumps (R152), and a return through the register that `jal` wrote (R154). -/

namespace Sys2Proof.Machine

/-! ## Exactly one of the three relations -/

/-- The truth values of "<", "=", ">" of two words when exactly one of them holds. -/
def exactlyOne : List (Bool × Bool × Bool) :=
  [(true, false, false), (false, true, false), (false, false, true)]

/-- Words compared through values that tell them apart, in a linear order. -/
theorem compare_mem_exactlyOne {α : Type} [LinearOrder α] {val : Word → α} (hval : Function.Injective val)
    (p q : Word) : (decide (val p < val q), decide (p = q), decide (val p > val q)) ∈ exactlyOne := by
  obtain hlt | heq | hgt := lt_trichotomy (val p) (val q)
  · have hne : p ≠ q := fun h => hlt.ne (congrArg val h)
    simp [exactlyOne, hlt, hlt.not_gt, hne]
  · simp [exactlyOne, hval heq]
  · have hne : p ≠ q := fun h => hgt.ne (congrArg val h.symm)
    simp [exactlyOne, hgt, hgt.not_gt, hne]

/-- R112, for both values of `CMP_SIGNED`. -/
theorem comparisons_mem_exactlyOne (signed : Bool) (p q : Word) :
    (lessThan signed p q, wordsEqual p q, greaterThan signed p q) ∈ exactlyOne := by
  cases signed with
  | true =>
    rw [lessThan_signed, greaterThan_signed]
    exact compare_mem_exactlyOne (fun _ _ => BitVec.eq_of_toInt_eq) p q
  | false =>
    rw [lessThan_unsigned, greaterThan_unsigned]
    exact compare_mem_exactlyOne (fun _ _ => BitVec.eq_of_toNat_eq) p q

/-! ## The word `cmpgt` writes -/

theorem completesWriting_cmpgt (d a b : Reg) (s : State) :
    CompletesWriting (.cmpgt d a b) d
      (boolWord (greaterThan Config.cmpSigned (s.readReg a) (s.readReg b))) 1 s :=
  completesWriting_of_rrrWrite (f := fun p q => boolWord (greaterThan Config.cmpSigned p q)) rfl rfl

/-- A register other than R0 reads as it was written (R22, R23). -/
theorem wordAfterWrite_of_ne {d : Reg} (hd : d ≠ 0) (v : Word) : wordAfterWrite d v = v := by
  simp [wordAfterWrite, hd]

/-! ## The statements -/

/-- Settles O31: an RRR write of the truth value of ">", which is "<" with the operands exchanged. -/
theorem cmpgtByRule : Obligations.CmpgtByRule := by
  refine ⟨rfl, greaterThan_signed, greaterThan_unsigned, comparisons_mem_exactlyOne,
    fun d a b s => ⟨decodesFromRrr_cmpgt d a b, ?_, rfl⟩⟩
  rw [← boolWord_eq]
  exact completesWriting_cmpgt d a b s

/-- Settles O32: the three words are the truth values of the three relations, and exactly one holds. -/
theorem exactlyOneComparisonHolds : Obligations.ExactlyOneComparisonHolds := by
  intro d a b s hd
  obtain ⟨t, ht, hlt, -⟩ := completesWriting_cmplt d a b s
  obtain ⟨u, hu, heq, -⟩ := completesWriting_cmpeq d a b s
  obtain ⟨v, hv, hgt, -⟩ := completesWriting_cmpgt d a b s
  refine ⟨t, u, v, ht, hu, hv, ?_⟩
  rw [hlt, heq, hgt, wordAfterWrite_of_ne hd, wordAfterWrite_of_ne hd, wordAfterWrite_of_ne hd]
  have hone := comparisons_mem_exactlyOne Config.cmpSigned (s.readReg a) (s.readReg b)
  exact List.mem_map_of_mem (f := Prod.map boolWord (Prod.map boolWord boolWord)) hone

/-- Settles O37: both functions are supplied, so `shiftBy_completes` applies. -/
theorem shiftsComplete : Obligations.ShiftsComplete := fun d a b s =>
  ⟨shiftBy_completes Config.shiftlValue d a b s, shiftBy_completes Config.shiftrValue d a b s⟩

/-- Settles O49: the register holds the address after the `jal`, and the displacement adds nothing. -/
theorem jumpThroughLinkReturns : Obligations.JumpThroughLinkReturns := by
  intro d a d' disp s t u hd hjal hkept
  rw [exec_jal] at hjal
  obtain rfl := Host.Outcome.next.inj hjal
  refine ⟨_, exec_jump d' d 0x0000#16 u, ?_⟩
  rw [setPc_pc, State.effectiveAddress, hkept, readReg_setPc, readReg_writeReg_same, wordAfterWrite_of_ne hd,
    advance_pc]
  exact BitVec.zero_add _

/-- Settles O50, by whether register d holds 0x0000. -/
theorem exactlyOneConditionalTaken : Obligations.ExactlyOneConditionalTaken := by
  intro d a disp s
  by_cases hd : (s.readReg d).toNat = 0
  · exact ⟨_, _, exec_jumpf_of_zero hd disp a, exec_jumpt_of_zero hd disp a, .inl ⟨rfl, rfl⟩⟩
  · exact ⟨_, _, exec_jumpf_of_nonzero hd disp a, exec_jumpt_of_nonzero hd disp a, .inr ⟨rfl, rfl⟩⟩

end Sys2Proof.Machine
end
